-- ==== Sys2Proof/Word.lean ====
section
/-! DEFINITION. The word, byte and field types of the hardware (00_scope.md R5, R6; 30_encoding.md R51). -/

namespace Sys2Proof

/-- A 32-bit value: register, ALU operand, address, instruction word, memory cell (R5, R9). -/
abbrev Word := BitVec 32
/-- A quarter of a memory cell; the core itself never moves one (20_memory.md R37). -/
abbrev Byte := BitVec 8
/-- A register-index field; every value names a register (10_state.md R12). -/
abbrev RegIdx := BitVec 5
/-- Bits 31 to 26 of an instruction word (R51). -/
abbrev Opcode := BitVec 6
/-- Bits 5 to 0 of an instruction word (R51). -/
abbrev Funct := BitVec 6
/-- Bits 15 to 0 of an instruction word (R51). -/
abbrev Imm16 := BitVec 16
/-- Bits 25 to 0 of an instruction word (R51). -/
abbrev Target26 := BitVec 26

end Sys2Proof
end

