-- ==== Sys2Proof/Config.lean ====
section
/-! DEFINITION. The implementation parameters (00_scope.md R5) and the free values. The launch values PC_INIT, REG_INIT
and MEM_INIT are arguments of `Machine.State.launch`, not fields here. -/

namespace Sys2Proof

/-- The two readings of the boolean-reduced AND (40_alu.md R76, 90_conflicts.md C12). -/
inductive AndReduction where
  /-- 1 exactly when the bitwise AND is nonzero. -/
  | bitwiseThenNonzero
  /-- 1 exactly when both operands are nonzero. -/
  | logical
  deriving DecidableEq, Repr, Inhabited

/-- The configuration record of R5; the widths and counts it lists that cannot vary are in the types. -/
structure Config where
  /-- MEM_BOUND, the literal a data address is compared with. -/
  memBound : Nat
  /-- ALU_AND_REDUCTION. -/
  andReduction : AndReduction
  deriving DecidableEq, Repr

/-- MEM_WORDS, the number of 32-bit cells: the least capacity that holds every admitted address (92_eei_decisions.md D2).
DEDUCED, log 6. -/
def Config.memWords (c : Config) : Nat := (c.memBound + 3) / 4

/-- The reading this hardware takes of the reduced AND. FREE: the source does not decide it, so nothing can be proved of
its value (R76, D14). DESIGN CHOICE, safe, log 5. -/
opaque Config.freeAndReduction : AndReduction

/-- Memory Access's `memdata` output when MemRead is 0, which 41_datapath.md R108 calls meaningful only when MemRead is 1.
FREE. DESIGN CHOICE, safe, log 13. -/
opaque Config.idleMemdata : Word

/-- The parameters of this hardware (R5). -/
def config : Config where
  memBound := 0xFFFF
  andReduction := Config.freeAndReduction

end Sys2Proof
end

