-- ==== Sys2Proof/Machine/Flags.lean ====
section
/-! DEFINITION. The Zero flag, the hardware's only flag: produced by the ALU for the current instruction and not kept
(10_state.md R19, 40_alu.md R71). -/

namespace Sys2Proof.Machine

/-- R71: 1 exactly when the 32-bit result, after wrapping, is 0. -/
def zeroFlag (result : Word) : Bool := result == 0

end Sys2Proof.Machine
end

