-- ==== Sys2Proof/Machine/Alu.lean ====
section
/-! DEFINITION. The arithmetic-logic unit (40_alu.md R70 to R81): pure, total, never fails. -/

namespace Sys2Proof.Machine

/-- The eight operations (R70). -/
inductive AluOp where
  | add | sub | slt | sltu | and | or | shiftLeft16 | not
  deriving DecidableEq, Repr

/-- The ALU's outputs (R70). -/
structure AluOut where
  result : Word
  zero : Bool
  deriving DecidableEq, Repr

/-- The word a truth value is written as. -/
def boolWord (b : Bool) : Word := if b then 1 else 0

/-- R76, under a given reading. The readings can differ only where both operands are nonzero and share no set bit, and only
there is the reading consulted. -/
def andReduced (reading : AndReduction) (a b : Word) : Word :=
  if a &&& b ≠ 0 then 1
  else if a = 0 ∨ b = 0 then 0
  else match reading with
    | .bitwiseThenNonzero => 0
    | .logical => 1

/-- The result of each operation: R72 to R79 in order. The AND takes the reading of the configuration, which is free
(log 5). -/
def aluResult (op : AluOp) (a b : Word) : Word :=
  match op with
  | .add => a + b
  | .sub => a - b
  | .slt => boolWord (decide (a.toInt < b.toInt))
  | .sltu => boolWord (decide (a.toNat < b.toNat))
  | .and => andReduced config.andReduction a b
  | .or => boolWord (a ||| b != 0)
  | .shiftLeft16 => b <<< 16
  | .not => ~~~a

/-- R70: the result and its Zero flag. -/
def alu (op : AluOp) (a b : Word) : AluOut where
  result := aluResult op a b
  zero := zeroFlag (aluResult op a b)

/-- The operation a selector numeral names (10_state.md R18, 92_eei_decisions.md D4). DEDUCED, log 11. -/
def aluSelect (sel : BitVec 4) : Option AluOp :=
  if sel = 0 then some .add
  else if sel = 1 then some .sub
  else if sel = 2 then some .slt
  else if sel = 3 then some .sltu
  else if sel = 4 then some .and
  else if sel = 5 then some .or
  else if sel = 6 then some .shiftLeft16
  else if sel = 7 then some .not
  else none

/-- The ALU at its own interface: an undefined selector yields 0, and so Zero = 1 (R80). -/
def aluBySelector (sel : BitVec 4) (a b : Word) : AluOut :=
  match aluSelect sel with
  | some op => alu op a b
  | none => { result := 0, zero := zeroFlag 0 }

end Sys2Proof.Machine
end

