-- ==== Sys2Proof/Syntax.lean ====
section
/-! DEFINITION. The fourteen instructions (30_encoding.md R56, R57), and the assembly terms that spell them (R62). -/

namespace Sys2Proof

/-- One constructor per row of the opcode table. The arguments are the fields the instruction uses, in the order r1, r2,
r3, imm16 or target26 of R51; ignored bits are no argument (R53). -/
inductive Instr where
  /-- `add $r3,$r1,$r2` (42_rtype.md R130) -/
  | add (r1 r2 r3 : RegIdx)
  /-- `sub $r3,$r1,$r2` (R131) -/
  | sub (r1 r2 r3 : RegIdx)
  /-- `and $r3,$r1,$r2` (R132) -/
  | and (r1 r2 r3 : RegIdx)
  /-- `or $r3,$r1,$r2` (R133) -/
  | or (r1 r2 r3 : RegIdx)
  /-- `slt $r3,$r1,$r2` (R134) -/
  | slt (r1 r2 r3 : RegIdx)
  /-- `sltu $r3,$r1,$r2` (R135) -/
  | sltu (r1 r2 r3 : RegIdx)
  /-- `j addr` (45_control_transfer.md R161) -/
  | j (target26 : Target26)
  /-- `beq $r1,$r2,off` (R160) -/
  | beq (r1 r2 : RegIdx) (imm16 : Imm16)
  /-- `addi $r2,$r1,imm` (43_immediate.md R140) -/
  | addi (r1 r2 : RegIdx) (imm16 : Imm16)
  /-- `slti $r2,$r1,imm` (R141) -/
  | slti (r1 r2 : RegIdx) (imm16 : Imm16)
  /-- `sltiu $r2,$r1,imm` (R142) -/
  | sltiu (r1 r2 : RegIdx) (imm16 : Imm16)
  /-- `lui $r2,imm` (R143) -/
  | lui (r2 : RegIdx) (imm16 : Imm16)
  /-- `lw $r2,imm($r1)` (44_load_store.md R150) -/
  | lw (r1 r2 : RegIdx) (imm16 : Imm16)
  /-- `sw $r2,imm($r1)` (R151) -/
  | sw (r1 r2 : RegIdx) (imm16 : Imm16)
  deriving DecidableEq, Repr

/-- The mnemonic of the opcode table. -/
def Instr.mnemonic : Instr → String
  | .add .. => "add"
  | .sub .. => "sub"
  | .and .. => "and"
  | .or .. => "or"
  | .slt .. => "slt"
  | .sltu .. => "sltu"
  | .j .. => "j"
  | .beq .. => "beq"
  | .addi .. => "addi"
  | .slti .. => "slti"
  | .sltiu .. => "sltiu"
  | .lui .. => "lui"
  | .lw .. => "lw"
  | .sw .. => "sw"

/-- The R-type mnemonics of an assembly term. -/
inductive AsmROp where
  | add | sub | and | or | slt | sltu
  deriving DecidableEq, Repr

/-- The mnemonics written `op $t,$s,imm`. -/
inductive AsmIOp where
  | addi | slti | sltiu
  deriving DecidableEq, Repr

/-- The mnemonics written `op $t,imm($s)`. -/
inductive AsmMOp where
  | lw | sw
  deriving DecidableEq, Repr

/-- A line of assembly as R62 spells it, with the operands as the programmer's numbers, in the order written. The spelling
of all but `add` and `beq` is the spec's own (92_eei_decisions.md D28). PRESUMED, log 19. -/
inductive AsmInstr where
  /-- `op $d,$s,$t` -/
  | rtype (op : AsmROp) (d s t : Nat)
  /-- `op $t,$s,imm` -/
  | itype (op : AsmIOp) (t s : Nat) (imm : Int)
  /-- `lui $t,imm` -/
  | lui (t : Nat) (imm : Int)
  /-- `op $t,imm($s)` -/
  | mem (op : AsmMOp) (t : Nat) (imm : Int) (s : Nat)
  /-- `beq $s,$t,off` -/
  | beq (s t : Nat) (off : Int)
  /-- `j addr`, `addr` a byte address -/
  | j (addr : Nat)
  deriving DecidableEq, Repr

end Sys2Proof
end

