-- ==== Sys2Proof/WellFormed.lean ====
section
/-! DEFINITION. Which assembly terms are well formed (30_encoding.md R62), the instruction each stands for, and the
spelling of an instruction. An `Instr` itself has no ill-formed value: each operand has its field's width, and every value
of a field is legal (10_state.md R12, 30_encoding.md R53, R60). -/

namespace Sys2Proof

/-- `$n` names a register: n is 0 to 31 (10_state.md R12). -/
def AsmInstr.regOk (n : Nat) : Bool := decide (n < 32)

/-- A 16-bit immediate, written as a signed decimal or as 16-bit hex (R62). -/
def AsmInstr.immOk (v : Int) : Bool := decide (-32768 ≤ v) && decide (v ≤ 65535)

/-- The operand of `j`: a 32-bit byte address that is a multiple of 4 (R62). -/
def AsmInstr.addrOk (a : Nat) : Bool := decide (a % 4 = 0) && decide (a < 2 ^ 32)

/-- Every operand fits the field it is assembled into (R62). -/
def AsmInstr.wellFormed : AsmInstr → Bool
  | .rtype _ d s t => regOk d && regOk s && regOk t
  | .itype _ t s imm => regOk t && regOk s && immOk imm
  | .lui t imm => regOk t && immOk imm
  | .mem _ t imm s => regOk t && immOk imm && regOk s
  | .beq s t off => regOk s && regOk t && immOk off
  | .j addr => addrOk addr

/-- The instruction of an R-type mnemonic, from its fields. -/
def AsmROp.instr : AsmROp → RegIdx → RegIdx → RegIdx → Instr
  | .add => .add
  | .sub => .sub
  | .and => .and
  | .or => .or
  | .slt => .slt
  | .sltu => .sltu

/-- The instruction of an immediate mnemonic, from its fields. -/
def AsmIOp.instr : AsmIOp → RegIdx → RegIdx → Imm16 → Instr
  | .addi => .addi
  | .slti => .slti
  | .sltiu => .sltiu

/-- The instruction of a memory mnemonic, from its fields. -/
def AsmMOp.instr : AsmMOp → RegIdx → RegIdx → Imm16 → Instr
  | .lw => .lw
  | .sw => .sw

/-- The fields of an assembly term as R62's table gives them: r3 = d, r1 = s, r2 = t; target26 = addr[27:2]. -/
def AsmInstr.toInstr : AsmInstr → Instr
  | .rtype op d s t => op.instr (BitVec.ofNat 5 s) (BitVec.ofNat 5 t) (BitVec.ofNat 5 d)
  | .itype op t s imm => op.instr (BitVec.ofNat 5 s) (BitVec.ofNat 5 t) (BitVec.ofInt 16 imm)
  | .lui t imm => .lui (BitVec.ofNat 5 t) (BitVec.ofInt 16 imm)
  | .mem op t imm s => op.instr (BitVec.ofNat 5 s) (BitVec.ofNat 5 t) (BitVec.ofInt 16 imm)
  | .beq s t off => .beq (BitVec.ofNat 5 s) (BitVec.ofNat 5 t) (BitVec.ofInt 16 off)
  | .j addr => .j (BitVec.ofNat 26 (addr / 4))

/-- Assembling refuses an ill-formed term. -/
def AsmInstr.assemble (a : AsmInstr) : Option Instr :=
  if a.wellFormed then some a.toInstr else none

/-- The spelling of an instruction, immediates as signed decimals, the jump target as an address below 2^28. -/
def Instr.toAsm : Instr → AsmInstr
  | .add r1 r2 r3 => .rtype .add r3.toNat r1.toNat r2.toNat
  | .sub r1 r2 r3 => .rtype .sub r3.toNat r1.toNat r2.toNat
  | .and r1 r2 r3 => .rtype .and r3.toNat r1.toNat r2.toNat
  | .or r1 r2 r3 => .rtype .or r3.toNat r1.toNat r2.toNat
  | .slt r1 r2 r3 => .rtype .slt r3.toNat r1.toNat r2.toNat
  | .sltu r1 r2 r3 => .rtype .sltu r3.toNat r1.toNat r2.toNat
  | .j t => .j (4 * t.toNat)
  | .beq r1 r2 imm => .beq r1.toNat r2.toNat imm.toInt
  | .addi r1 r2 imm => .itype .addi r2.toNat r1.toNat imm.toInt
  | .slti r1 r2 imm => .itype .slti r2.toNat r1.toNat imm.toInt
  | .sltiu r1 r2 imm => .itype .sltiu r2.toNat r1.toNat imm.toInt
  | .lui r2 imm => .lui r2.toNat imm.toInt
  | .lw r1 r2 imm => .mem .lw r2.toNat imm.toInt r1.toNat
  | .sw r1 r2 imm => .mem .sw r2.toNat imm.toInt r1.toNat

/-- An instruction is well formed when its spelling is. Every instruction is (the family `Laws.WellFormed`): the operand types
isAdmitted nothing else. -/
def Instr.wellFormed (i : Instr) : Bool := i.toAsm.wellFormed

end Sys2Proof
end

