-- ==== Sys2Proof/Decode.lean ====
section
/-! DEFINITION. The Instruction Field Partitioner, the decoder, the opcode table's words and the encoder
(30_encoding.md R50 to R64, 41_datapath.md R92). -/

namespace Sys2Proof

/-- The seven fields the partitioner cuts every word into (R51). -/
structure Fields where
  opcode : Opcode
  r1 : RegIdx
  r2 : RegIdx
  r3 : RegIdx
  funct : Funct
  imm16 : Imm16
  target26 : Target26
  deriving DecidableEq, Repr

/-- R51, R92: pure bit-field extraction, all seven fields of every word. -/
def partition (w : Word) : Fields where
  opcode := w.extractLsb' 26 6
  r1 := w.extractLsb' 21 5
  r2 := w.extractLsb' 16 5
  r3 := w.extractLsb' 11 5
  funct := w.extractLsb' 0 6
  imm16 := w.extractLsb' 0 16
  target26 := w.extractLsb' 0 26

/-- The two ways a word is no instruction (R58, R59). -/
inductive Illegal where
  /-- Its opcode is none of the nine (R58). -/
  | opcode
  /-- Its opcode is 0x00 and its funct none of the six (R59). -/
  | funct
  deriving DecidableEq, Repr

/-- The R-type instruction a funct code selects under opcode 0x00 (R57, R59). -/
def decodeFunct (f : Fields) : Except Illegal Instr :=
  if f.funct = 0x20 then .ok (.add f.r1 f.r2 f.r3)
  else if f.funct = 0x22 then .ok (.sub f.r1 f.r2 f.r3)
  else if f.funct = 0x24 then .ok (.and f.r1 f.r2 f.r3)
  else if f.funct = 0x25 then .ok (.or f.r1 f.r2 f.r3)
  else if f.funct = 0x2A then .ok (.slt f.r1 f.r2 f.r3)
  else if f.funct = 0x2B then .ok (.sltu f.r1 f.r2 f.r3)
  else .error .funct

/-- The decoding procedure of R61, on the partitioned word: the opcode first, the funct only under opcode 0x00. -/
def decodeFields (f : Fields) : Except Illegal Instr :=
  if f.opcode = 0x00 then decodeFunct f
  else if f.opcode = 0x02 then .ok (.j f.target26)
  else if f.opcode = 0x04 then .ok (.beq f.r1 f.r2 f.imm16)
  else if f.opcode = 0x08 then .ok (.addi f.r1 f.r2 f.imm16)
  else if f.opcode = 0x0A then .ok (.slti f.r1 f.r2 f.imm16)
  else if f.opcode = 0x0B then .ok (.sltiu f.r1 f.r2 f.imm16)
  else if f.opcode = 0x0F then .ok (.lui f.r2 f.imm16)
  else if f.opcode = 0x23 then .ok (.lw f.r1 f.r2 f.imm16)
  else if f.opcode = 0x2B then .ok (.sw f.r1 f.r2 f.imm16)
  else .error .opcode

/-- Every 32-bit word is one of the fourteen instructions or illegal by name (R60). -/
def decodeWord (w : Word) : Except Illegal Instr := decodeFields (partition w)

/-! ### Words and bytes -/

/-- The word in a cell whose four bytes are given lowest address first. The core moves whole cells only and has no byte
order (20_memory.md R37, D26); the model stores the least significant byte lowest. DESIGN CHOICE, log 1. -/
def wordOfBytes (b0 b1 b2 b3 : Byte) : Word :=
  b0.setWidth 32 ||| (b1.setWidth 32 <<< 8) ||| (b2.setWidth 32 <<< 16) ||| (b3.setWidth 32 <<< 24)

/-- Byte `k` (0 to 3) of a word, numbered from the lowest address: the inverse of `wordOfBytes`. -/
def byteOfWord (w : Word) (k : Nat) : Byte := w.extractLsb' (8 * k) 8

/-- The bytes of a word, lowest address first. -/
def bytesOfWord (w : Word) : List Byte :=
  [byteOfWord w 0, byteOfWord w 1, byteOfWord w 2, byteOfWord w 3]

/-- Why a byte string does not begin with an instruction. -/
inductive Reject where
  /-- The word is illegal. -/
  | illegal (why : Illegal)
  /-- There are fewer than four bytes; a fetch always has four (R50). -/
  | truncated
  deriving DecidableEq, Repr

/-- The instruction at the head of a byte string, and the bytes after it; total on any bytes. -/
def decode : List Byte → Except Reject (Instr × List Byte)
  | b0 :: b1 :: b2 :: b3 :: rest =>
    match decodeWord (wordOfBytes b0 b1 b2 b3) with
    | .ok i => .ok (i, rest)
    | .error e => .error (.illegal e)
  | _ => .error .truncated

/-- The word whose bits, numbered as the opcode table numbers them, are `w`: bits at and above `nbits` are 0. -/
def tableWord (nbits w : Nat) : Word := BitVec.ofNat 32 (w % 2 ^ nbits)

/-- The instruction the decoder reads from the bytes of a table word. -/
def decodeTableWord (nbits w : Nat) : Option Instr :=
  match decode (bytesOfWord (tableWord nbits w)) with
  | .ok (i, _) => some i
  | .error _ => none

/-! ### The opcode table and the encoder -/

/-- A row of the maps of R56 and R57: the bits of `mask` must be those of `pattern`. -/
structure OpcodeRow where
  mnemonic : String
  pattern : Word
  mask : Word
  deriving DecidableEq, Repr

/-- The fourteen rows of R56 and R57. -/
def opcodeTable : List OpcodeRow :=
  [⟨"add", 0x00000020, 0xFC00003F⟩, ⟨"sub", 0x00000022, 0xFC00003F⟩, ⟨"and", 0x00000024, 0xFC00003F⟩,
   ⟨"or", 0x00000025, 0xFC00003F⟩, ⟨"slt", 0x0000002A, 0xFC00003F⟩, ⟨"sltu", 0x0000002B, 0xFC00003F⟩,
   ⟨"j", 0x08000000, 0xFC000000⟩, ⟨"beq", 0x10000000, 0xFC000000⟩, ⟨"addi", 0x20000000, 0xFC000000⟩,
   ⟨"slti", 0x28000000, 0xFC000000⟩, ⟨"sltiu", 0x2C000000, 0xFC000000⟩, ⟨"lui", 0x3C000000, 0xFC000000⟩,
   ⟨"lw", 0x8C000000, 0xFC000000⟩, ⟨"sw", 0xAC000000, 0xFC000000⟩]

/-- A word of the R-format (R52), its ignored bits 10 to 6 zero (R53; log 15). -/
def encodeR (funct : Funct) (r1 r2 r3 : RegIdx) : Word :=
  (r1.setWidth 32 <<< 21) ||| (r2.setWidth 32 <<< 16) ||| (r3.setWidth 32 <<< 11) ||| funct.setWidth 32

/-- A word of the I-format (R52). -/
def encodeI (opcode : Opcode) (r1 r2 : RegIdx) (imm16 : Imm16) : Word :=
  (opcode.setWidth 32 <<< 26) ||| (r1.setWidth 32 <<< 21) ||| (r2.setWidth 32 <<< 16) ||| imm16.setWidth 32

/-- The I-format word of lui, its ignored field r1 zero (R53, R62; log 15). -/
def encodeLui (opcode : Opcode) (r2 : RegIdx) (imm16 : Imm16) : Word :=
  (opcode.setWidth 32 <<< 26) ||| (r2.setWidth 32 <<< 16) ||| imm16.setWidth 32

/-- A word of the J-format (R52). -/
def encodeJ (opcode : Opcode) (target26 : Target26) : Word :=
  (opcode.setWidth 32 <<< 26) ||| target26.setWidth 32

/-- The word of an instruction, by the maps of R56 and R57. -/
def encode : Instr → Word
  | .add r1 r2 r3 => encodeR 0x20 r1 r2 r3
  | .sub r1 r2 r3 => encodeR 0x22 r1 r2 r3
  | .and r1 r2 r3 => encodeR 0x24 r1 r2 r3
  | .or r1 r2 r3 => encodeR 0x25 r1 r2 r3
  | .slt r1 r2 r3 => encodeR 0x2A r1 r2 r3
  | .sltu r1 r2 r3 => encodeR 0x2B r1 r2 r3
  | .j target26 => encodeJ 0x02 target26
  | .beq r1 r2 imm16 => encodeI 0x04 r1 r2 imm16
  | .addi r1 r2 imm16 => encodeI 0x08 r1 r2 imm16
  | .slti r1 r2 imm16 => encodeI 0x0A r1 r2 imm16
  | .sltiu r1 r2 imm16 => encodeI 0x0B r1 r2 imm16
  | .lui r2 imm16 => encodeLui 0x0F r2 imm16
  | .lw r1 r2 imm16 => encodeI 0x23 r1 r2 imm16
  | .sw r1 r2 imm16 => encodeI 0x2B r1 r2 imm16

/-- The bits of a word that its instruction uses: all but bits 10 to 6 of the R-format and field r1 of lui (R53). -/
def usedBits : Instr → Word
  | .add .. | .sub .. | .and .. | .or .. | .slt .. | .sltu .. => 0xFFFFF83F
  | .lui .. => 0xFC1FFFFF
  | .j .. | .beq .. | .addi .. | .slti .. | .sltiu .. | .lw .. | .sw .. => 0xFFFFFFFF

end Sys2Proof
end

