-- ==== Sys2Proof/Machine/State.lean ====
section
/-! DEFINITION. The machine's state (10_state.md R10), why a step can stop, and the state after reset. -/

namespace Sys2Proof.Machine

/-- The contents of memory: (byte address, byte) pairs in the canonical form `Memory.wf`; what an unlisted address reads as
is `Memory.unlistedByte`. -/
abbrev Memory := List Host.Cell

/-- R10: the state is exactly the register file, the program counter and the memory. -/
structure State where
  /-- x[0] to x[31]; register 0 is an ordinary register (R12, R13). -/
  regs : Vector Word 32
  /-- The byte address the next instruction is fetched from (R15). -/
  pc : Word
  /-- The one memory, shared by instructions and data (20_memory.md R30). -/
  mem : Memory
  deriving DecidableEq, Repr

/-- The halting conditions (60_exceptions.md R171). Each is a detected invalid state that stops the step with the state as
it was before the step (R175). -/
inductive Fault where
  /-- Raised by fetch: the pc is not a multiple of 4 (41_datapath.md R91). Safe: the spec's own halt. -/
  | misalignedFetch
  /-- Raised by fetch: an aligned pc beyond memory, which the source calls undefined (20_memory.md R36, 92_eei_decisions.md
  D16). Safe: the model stops where the hardware might go on. Log 7. -/
  | fetchOutOfRange
  /-- Raised by the decoder: the opcode is none of the nine (30_encoding.md R58). Safe: the spec's own halt. -/
  | illegalOpcode
  /-- Raised by the decoder: opcode 0x00 with a funct that is none of the six (R59). Safe: the spec's own halt. -/
  | illegalFunct
  /-- Raised by lw and sw: the address is not a multiple of 4, or not below MEM_BOUND (R32). Safe: the spec's own halt;
  that the comparison is unsigned is log 8. -/
  | badMemAccess
  deriving DecidableEq, Repr

/-- Inputs to which the model gives no meaning. No step answers one. -/
inductive Refusal where
  /-- Raised by `exec` for an instruction without a meaning; there is none left. Safe. -/
  | notModelled (mnemonic : String)
  /-- Raised by the Memory Access component alone, when it is driven with both MemRead and MemWrite, for which the source
  gives no behaviour and which no control row does (20_memory.md R35, 93_implementation_defined.md U5). Safe. Log 12. -/
  | memReadAndWrite
  deriving DecidableEq, Repr

/-- The state after reset. The core has no reset values of its own: the host supplies every value (R21, R22), for which
`State.launch` stands. These are the model's: every register 0 (log 3), the pc 0 (log 4), no byte of memory listed (log 2).
DESIGN CHOICE. -/
def State.reset : State where
  regs := Vector.replicate 32 0
  pc := 0
  mem := []

end Sys2Proof.Machine
end

