-- ==== Sys2Proof/Machine/Ops.lean ====
section
/-! DEFINITION. The named operations over registers, memory and the program counter, and the halt. -/

namespace Sys2Proof.Machine

/-! ### Memory, byte by byte -/

/-- What a byte that nothing has written reads as. The spec leaves MEM_INIT to the host (70_reset_and_hazards.md R193); a
state can list any other contents. DESIGN CHOICE, log 2. -/
def Memory.unlistedByte : Byte := 0

/-- The canonical form: addresses strictly rising, and no entry that says what an unlisted address says. -/
abbrev Memory.wf (m : Memory) : Prop :=
  m.Pairwise (fun c d => c.1 < d.1) ∧ ∀ c ∈ m, c.2 ≠ Memory.unlistedByte

/-- Every listed byte lies in one of the MEM_WORDS cells (20_memory.md R31). -/
abbrev Memory.inRange (m : Memory) : Prop := ∀ c ∈ m, c.1 < 4 * config.memWords

/-- The byte at an address. -/
def Memory.readByte : Memory → Nat → Byte
  | [], _ => Memory.unlistedByte
  | (a, v) :: rest, k => if a = k then v else Memory.readByte rest k

/-- Put a byte at an address, keeping the canonical form. -/
def Memory.writeByte : Memory → Nat → Byte → Memory
  | [], k, v => if v = Memory.unlistedByte then [] else [(k, v)]
  | (a, u) :: rest, k, v =>
    if k < a then
      if v = Memory.unlistedByte then (a, u) :: rest else (k, v) :: (a, u) :: rest
    else if k = a then
      if v = Memory.unlistedByte then rest else (k, v) :: rest
    else (a, u) :: Memory.writeByte rest k v

/-- The 32-bit cell whose first byte is at `a`. -/
def Memory.readWord (m : Memory) (a : Nat) : Word :=
  wordOfBytes (m.readByte a) (m.readByte (a + 1)) (m.readByte (a + 2)) (m.readByte (a + 3))

/-- Replace the whole 32-bit cell whose first byte is at `a`. -/
def Memory.writeWord (m : Memory) (a : Nat) (v : Word) : Memory :=
  let m0 := m.writeByte a (byteOfWord v 0)
  let m1 := Memory.writeByte m0 (a + 1) (byteOfWord v 1)
  let m2 := Memory.writeByte m1 (a + 2) (byteOfWord v 2)
  Memory.writeByte m2 (a + 3) (byteOfWord v 3)

/-! ### Registers and program counter -/

/-- `x[i]` (00_scope.md R7); register 0 is not special (10_state.md R13). -/
def State.readReg (s : State) (i : RegIdx) : Word := s.regs[i.toNat]'i.isLt

/-- `x[i] <- v` (R7); register 0 is written like any other (R13). -/
def State.writeReg (s : State) (i : RegIdx) (v : Word) : State :=
  { s with regs := s.regs.set i.toNat v i.isLt }

/-- `pc <- t` (R7). -/
def State.setPc (s : State) (t : Word) : State := { s with pc := t }

/-- Replace the memory. -/
def State.setMem (s : State) (m : Memory) : State := { s with mem := m }

/-- `pc + 4` modulo 2^32 (10_state.md R16; log 10). -/
def nextPc (pc : Word) : Word := pc + 4

/-- `pc <- pc + 4` (41_datapath.md R116). -/
def State.advance (s : State) : State := s.setPc (nextPc s.pc)

/-- The launch: the host supplies every register, every cell and the pc (70_reset_and_hazards.md R190 to R193). -/
def State.launch (regInit : Vector Word 32) (memInit : Memory) (pcInit : Word) : State where
  regs := regInit
  pc := pcInit
  mem := memInit

/-! ### Halting -/

/-- Entering a halting condition, which is all this hardware has for an exception (60_exceptions.md R170, R175): nothing is
saved, no status, mode or pc changes, control goes nowhere. The step's outcome is the kind, and the state stays the one the
step began from. There is no return (R176). Log 18. -/
def halt {α : Type} (k : Fault) : Host.Outcome α Fault Refusal := .fault k

/-- The code of a halting condition on `halt_kind` (R171; the numerals are the spec's, 92_eei_decisions.md D20, log 11). -/
def Fault.code : Fault → BitVec 3
  | .misalignedFetch => 1
  | .illegalOpcode => 2
  | .illegalFunct => 3
  | .badMemAccess => 4
  | .fetchOutOfRange => 5

/-- The halting condition an illegal word raises (R172, R173). -/
def illegalFault : Illegal → Fault
  | .opcode => .illegalOpcode
  | .funct => .illegalFunct

/-! ### Whole-cell accesses -/

/-- `addr[1:0] == 0` (20_memory.md R38). -/
def aligned (addr : Word) : Bool := addr.extractLsb' 0 2 == 0

/-- Admission of a data access: a multiple of 4, and unsigned below MEM_BOUND (R32; log 8). -/
def isAdmitted (addr : Word) : Bool := aligned addr && decide (addr.toNat < config.memBound)

/-- The word index of a byte address (R30). -/
def wordIndex (addr : Word) : Nat := addr.toNat / 4

/-- `MemRead(addr, 4)` behind its check (R32, R33): the cell, or BadMemAccess. -/
def State.load (s : State) (addr : Word) : Except Fault Word :=
  if isAdmitted addr then .ok (s.mem.readWord (4 * wordIndex addr)) else .error .badMemAccess

/-- `MemWrite(addr, 4, v)` behind its check (R32, R34): the cell is replaced, or BadMemAccess and nothing is. -/
def State.store (s : State) (addr v : Word) : Except Fault State :=
  if isAdmitted addr then .ok (s.setMem (s.mem.writeWord (4 * wordIndex addr) v)) else .error .badMemAccess

/-- Instruction Fetch (R36; 41_datapath.md R90, R91): alignment first, then the decided bound (log 7), then the cell. -/
def State.fetch (s : State) : Except Fault Word :=
  if !aligned s.pc then .error .misalignedFetch
  else if config.memWords ≤ wordIndex s.pc then .error .fetchOutOfRange
  else .ok (s.mem.readWord (4 * wordIndex s.pc))

end Sys2Proof.Machine
end

