-- ==== Sys2Proof/Machine/Operands.lean ====
section
/-! DEFINITION. The operand forms: the sign-extended immediate, the effective address, the branch and jump targets, and
the write of an ALU result to a register. -/

namespace Sys2Proof.Machine

/-- `sext_16`: bit 15 replicated into bits 31 to 16 (40_alu.md R82). -/
def sext16 (imm16 : Imm16) : Word := imm16.signExtend 32

/-- The effective address of lw and sw: base plus displacement, by the ALU's add (44_load_store.md R152). -/
def State.effectiveAddr (s : State) (r1 : RegIdx) (imm16 : Imm16) : Word :=
  (alu .add (s.readReg r1) (sext16 imm16)).result

/-- `npc + (sext_16(imm16) << 2)` (41_datapath.md R117). -/
def branchTarget (npc : Word) (imm16 : Imm16) : Word := npc + (sext16 imm16 <<< 2)

/-- `(npc & 0xF0000000) | (target26 << 2)`, that is `npc[31:28] || target26 || 0b00` (41_datapath.md R118,
30_encoding.md R55). -/
def jumpTarget (npc : Word) (target26 : Target26) : Word :=
  (npc &&& 0xF0000000) ||| (target26.setWidth 32 <<< 2)

/-- Write the ALU's result to a register and step to the next instruction: what the R-type and immediate instructions do
(42_rtype.md R136, 43_immediate.md R144). -/
def aluWrite (op : AluOp) (a b : Word) (dest : RegIdx) (s : State) : Host.Outcome State Fault Refusal :=
  .next (s.writeReg dest (alu op a b).result).advance

end Sys2Proof.Machine
end

