-- ==== Sys2Proof/Machine/ControlTransfer.lean ====
section
/-! DEFINITION. Control transfer (45_control_transfer.md R160 to R163): no delay slot, no link, targets not checked here. -/

namespace Sys2Proof.Machine

/-- R160: `pc + 4`, plus `sext_16(imm16) << 2` when the ALU's subtraction of the two registers is zero. -/
def execBeq (r1 r2 : RegIdx) (imm16 : Imm16) (s : State) : Host.Outcome State Fault Refusal :=
  if (alu .sub (s.readReg r1) (s.readReg r2)).zero then .next (s.setPc (branchTarget (nextPc s.pc) imm16))
  else .next s.advance

/-- R161: `pc <- (pc + 4)[31:28] || target26 || 0b00`. -/
def execJ (target26 : Target26) (s : State) : Host.Outcome State Fault Refusal :=
  .next (s.setPc (jumpTarget (nextPc s.pc) target26))

end Sys2Proof.Machine
end

