-- ==== Sys2Proof/Machine/Immediate.lean ====
section
/-! DEFINITION. The immediate instructions (43_immediate.md R140 to R144). Their control rows are the spec's decisions
D8 to D11. DEDUCED, log 9. -/

namespace Sys2Proof.Machine

/-- R140: `x[r2] <- x[r1] + sext_16(imm16)`. -/
def execAddi (r1 r2 : RegIdx) (imm16 : Imm16) (s : State) : Host.Outcome State Fault Refusal :=
  aluWrite .add (s.readReg r1) (sext16 imm16) r2 s

/-- R141: `x[r2] <- 1 if s(x[r1]) < s(sext_16(imm16)) else 0`. -/
def execSlti (r1 r2 : RegIdx) (imm16 : Imm16) (s : State) : Host.Outcome State Fault Refusal :=
  aluWrite .slt (s.readReg r1) (sext16 imm16) r2 s

/-- R142: `x[r2] <- 1 if u(x[r1]) < u(sext_16(imm16)) else 0`. -/
def execSltiu (r1 r2 : RegIdx) (imm16 : Imm16) (s : State) : Host.Outcome State Fault Refusal :=
  aluWrite .sltu (s.readReg r1) (sext16 imm16) r2 s

/-- R143: `x[r2] <- sext_16(imm16) << 16`. The ALU ignores its first operand, so field r1 is no operand here (R53). -/
def execLui (r2 : RegIdx) (imm16 : Imm16) (s : State) : Host.Outcome State Fault Refusal :=
  aluWrite .shiftLeft16 0 (sext16 imm16) r2 s

end Sys2Proof.Machine
end

