-- ==== Sys2Proof/Machine/LoadStore.lean ====
section
/-! DEFINITION. Load and store (44_load_store.md R150 to R152). -/

namespace Sys2Proof.Machine

/-- R150: `x[r2] <- MemRead(x[r1] + sext_16(imm16), 4)`, or BadMemAccess with nothing changed. -/
def execLw (r1 r2 : RegIdx) (imm16 : Imm16) (s : State) : Host.Outcome State Fault Refusal :=
  match s.load (s.effectiveAddr r1 imm16) with
  | .ok v => .next (s.writeReg r2 v).advance
  | .error k => halt k

/-- R151: `MemWrite(x[r1] + sext_16(imm16), 4, x[r2])`, or BadMemAccess with nothing changed. -/
def execSw (r1 r2 : RegIdx) (imm16 : Imm16) (s : State) : Host.Outcome State Fault Refusal :=
  match s.store (s.effectiveAddr r1 imm16) (s.readReg r2) with
  | .ok t => .next t.advance
  | .error k => halt k

end Sys2Proof.Machine
end

