-- ==== Sys2Proof/Machine/RType.lean ====
section
/-! DEFINITION. The register-type instructions (42_rtype.md R130 to R136). -/

namespace Sys2Proof.Machine

/-- R130: `x[r3] <- x[r1] + x[r2]`. -/
def execAdd (r1 r2 r3 : RegIdx) (s : State) : Host.Outcome State Fault Refusal :=
  aluWrite .add (s.readReg r1) (s.readReg r2) r3 s

/-- R131: `x[r3] <- x[r1] - x[r2]`. -/
def execSub (r1 r2 r3 : RegIdx) (s : State) : Host.Outcome State Fault Refusal :=
  aluWrite .sub (s.readReg r1) (s.readReg r2) r3 s

/-- R132: `x[r3] <-` the boolean-reduced AND, 1 or 0. -/
def execAnd (r1 r2 r3 : RegIdx) (s : State) : Host.Outcome State Fault Refusal :=
  aluWrite .and (s.readReg r1) (s.readReg r2) r3 s

/-- R133: `x[r3] <-` the boolean-reduced OR, 1 or 0. -/
def execOr (r1 r2 r3 : RegIdx) (s : State) : Host.Outcome State Fault Refusal :=
  aluWrite .or (s.readReg r1) (s.readReg r2) r3 s

/-- R134: `x[r3] <- 1 if s(x[r1]) < s(x[r2]) else 0`. -/
def execSlt (r1 r2 r3 : RegIdx) (s : State) : Host.Outcome State Fault Refusal :=
  aluWrite .slt (s.readReg r1) (s.readReg r2) r3 s

/-- R135: `x[r3] <- 1 if u(x[r1]) < u(x[r2]) else 0`. -/
def execSltu (r1 r2 r3 : RegIdx) (s : State) : Host.Outcome State Fault Refusal :=
  aluWrite .sltu (s.readReg r1) (s.readReg r2) r3 s

end Sys2Proof.Machine
end

