-- ==== Sys2Proof/Machine/Step.lean ====
section
/-! DEFINITION. One step: fetch, decode, execute (41_datapath.md R89, R121), and where a step finds its instruction. -/

namespace Sys2Proof.Machine

/-- One step (R121). The first halting condition in stage order is the outcome (60_exceptions.md R174). -/
def step (s : State) : Host.Outcome State Fault Refusal :=
  match s.fetch with
  | .error k => halt k
  | .ok w =>
    match decodeWord w with
    | .error e => halt (illegalFault e)
    | .ok i => exec i s

/-- The state with a table word in the cell the next step fetches. A pc from which nothing can be fetched is first set to
0. A program is loaded from outside the machine (70_reset_and_hazards.md R195; log 17). -/
def State.withFetchWord (s : State) (nbits w : Nat) : State :=
  let s := if aligned s.pc && decide (wordIndex s.pc < config.memWords) then s else s.setPc 0
  s.setMem (s.mem.writeWord (4 * wordIndex s.pc) (tableWord nbits w))

end Sys2Proof.Machine
end

