-- ==== Sys2Proof/Machine/Control.lean ====
section
/-! DEFINITION. The control-signal vector and the Control Decoder (10_state.md R17, R18; 41_datapath.md R93 to R96). -/

namespace Sys2Proof.Machine

/-- RegDst: which field names the destination (R17). -/
inductive RegDst where
  | rt | rd | dontCare
  deriving DecidableEq, Repr

/-- MemtoReg: what Write-Back stores (R17). -/
inductive MemtoReg where
  | alu | memory | dontCare
  deriving DecidableEq, Repr

/-- ALUOp: an operation passed straight to the ALU, or the sentinel RTYPE (R17). -/
inductive ALUOp where
  | op (o : AluOp)
  | rtype
  deriving DecidableEq, Repr

/-- ALUSrc: the second ALU operand (R17). -/
inductive ALUSrc where
  | register | immediate
  deriving DecidableEq, Repr

/-- The nine control signals, in the source's order (R17). -/
structure ControlVector where
  regDst : RegDst
  jump : Bool
  branch : Bool
  memRead : Bool
  memtoReg : MemtoReg
  aluOp : ALUOp
  memWrite : Bool
  aluSrc : ALUSrc
  regWrite : Bool
  deriving DecidableEq, Repr

/-- The row of opcode 0x00 (R94, D5). -/
def rowRType : ControlVector := ⟨.rd, false, false, false, .alu, .rtype, false, .register, true⟩
/-- The row of j (R94, D6). -/
def rowJ : ControlVector := ⟨.dontCare, true, false, false, .dontCare, .op .add, false, .register, false⟩
/-- The row of beq (R94, D7). -/
def rowBeq : ControlVector := ⟨.dontCare, false, true, false, .dontCare, .op .sub, false, .register, false⟩
/-- The row of an immediate instruction with the given operation (R94, D8 to D11). -/
def rowImmediate (o : AluOp) : ControlVector := ⟨.rt, false, false, false, .alu, .op o, false, .immediate, true⟩
/-- The row of lw (R94, D12; all but ALUOp printed by the source). -/
def rowLw : ControlVector := ⟨.rt, false, false, true, .memory, .op .add, false, .immediate, true⟩
/-- The row of sw (R94, D13). -/
def rowSw : ControlVector := ⟨.dontCare, false, false, false, .dontCare, .op .add, true, .immediate, false⟩

/-- The Control Decoder: the row of a supported opcode, else IllegalOpcode (R93, R94). The rows are the spec's decisions
D5 to D13. DEDUCED, log 9. -/
def decodeControl (opcode : Opcode) : Except Fault ControlVector :=
  if opcode = 0x00 then .ok rowRType
  else if opcode = 0x02 then .ok rowJ
  else if opcode = 0x04 then .ok rowBeq
  else if opcode = 0x08 then .ok (rowImmediate .add)
  else if opcode = 0x0A then .ok (rowImmediate .slt)
  else if opcode = 0x0B then .ok (rowImmediate .sltu)
  else if opcode = 0x0F then .ok (rowImmediate .shiftLeft16)
  else if opcode = 0x23 then .ok rowLw
  else if opcode = 0x2B then .ok rowSw
  else .error .illegalOpcode

/-! ### Numerals (R18, D3, D4). No rule depends on them. DEDUCED, log 11. -/

/-- RegDst: 0 rt, 1 rd, 2 don't-care. -/
def RegDst.code : RegDst → Nat
  | .rt => 0
  | .rd => 1
  | .dontCare => 2

/-- MemtoReg: 0 ALU, 1 memory, 2 don't-care. -/
def MemtoReg.code : MemtoReg → Nat
  | .alu => 0
  | .memory => 1
  | .dontCare => 2

/-- ALUSrc: 0 register, 1 immediate. -/
def ALUSrc.code : ALUSrc → Nat
  | .register => 0
  | .immediate => 1

/-- The ALU selector numerals, the inverse of `aluSelect`. -/
def AluOp.code : AluOp → BitVec 4
  | .add => 0
  | .sub => 1
  | .slt => 2
  | .sltu => 3
  | .and => 4
  | .or => 5
  | .shiftLeft16 => 6
  | .not => 7

/-- ALUOp: the selector numerals, and 8 for RTYPE. -/
def ALUOp.code : ALUOp → BitVec 4
  | .op o => o.code
  | .rtype => 8

end Sys2Proof.Machine
end

