-- ==== Sys2Proof/Machine/Datapath.lean ====
section
/-! DEFINITION. The datapath stage by stage (41_datapath.md): the same hardware as `step`, built from its components. Each
component takes every input its interface allows, also those no control row gives it. -/

namespace Sys2Proof.Machine

/-- Register Read (R103): the stored values of r1 and r2, on every instruction. -/
def registerRead (s : State) (r1 r2 : RegIdx) : Word × Word := (s.readReg r1, s.readReg r2)

/-- Operand selection (R105): the ALU's second operand. The first is always `data1` (D19, log 22). -/
def selectOperand (src : ALUSrc) (data2 ext : Word) : Word :=
  match src with
  | .register => data2
  | .immediate => ext

/-- The funct table (R106). -/
def functOp (funct : Funct) : Except Fault AluOp :=
  if funct = 0x20 then .ok .add
  else if funct = 0x22 then .ok .sub
  else if funct = 0x24 then .ok .and
  else if funct = 0x25 then .ok .or
  else if funct = 0x2A then .ok .slt
  else if funct = 0x2B then .ok .sltu
  else .error .illegalFunct

/-- Operation resolution (R106): the funct is looked at only under RTYPE. -/
def resolveOp (aluOp : ALUOp) (funct : Funct) : Except Fault AluOp :=
  match aluOp with
  | .op o => .ok o
  | .rtype => functOp funct

/-- Memory Access's outputs: the loaded word and the memory after the stage. -/
structure MemStage where
  memdata : Word
  mem : Memory
  deriving DecidableEq, Repr

/-- Memory Access (R108 to R112). With neither flag the stage does nothing and `memdata` is free (log 13); both flags have no
meaning (U5, log 12). -/
def memoryAccess (memRead memWrite : Bool) (addr data2 : Word) (m : Memory) : Host.Outcome MemStage Fault Refusal :=
  match memRead, memWrite with
  | false, false => .next ⟨Config.idleMemdata, m⟩
  | true, false => if isAdmitted addr then .next ⟨m.readWord (4 * wordIndex addr), m⟩ else halt .badMemAccess
  | false, true => if isAdmitted addr then .next ⟨Config.idleMemdata, m.writeWord (4 * wordIndex addr) data2⟩ else halt .badMemAccess
  | true, true => .refused .memReadAndWrite

/-- The value Write-Back stores (R114); a don't-care acts as ALU (D15, log 14). -/
def writeBackValue (memtoReg : MemtoReg) (memdata aluResult : Word) : Word :=
  match memtoReg with
  | .memory => memdata
  | .alu | .dontCare => aluResult

/-- The register Write-Back stores to (R114); a don't-care acts as rt (D15, log 14). -/
def writeBackDest (regDst : RegDst) (r2 r3 : RegIdx) : RegIdx :=
  match regDst with
  | .rd => r3
  | .rt | .dontCare => r2

/-- Write-Back (R114): cannot fail, and protects no register. -/
def writeBack (regWrite : Bool) (dest : RegIdx) (value : Word) (s : State) : State :=
  if regWrite then s.writeReg dest value else s

/-- Program-Counter Update: R116, then R117, then R118, so that Jump wins over Branch (R119). -/
def pcUpdate (branch jump zero : Bool) (pc : Word) (imm16 : Imm16) (target26 : Target26) : Word :=
  let npc := nextPc pc
  let npc := if branch && zero then branchTarget npc imm16 else npc
  if jump then jumpTarget npc target26 else npc

/-- What the stages up to the ALU produce for a fetched word. -/
structure Executed where
  fields : Fields
  control : ControlVector
  data1 : Word
  data2 : Word
  ext : Word
  alu : AluOut
  deriving DecidableEq, Repr

/-- Partition, Decode, Register Read, Sign Extend, ALU resolution and execution (R92 to R107), in that order. -/
def executeStages (s : State) (w : Word) : Except Fault Executed :=
  let f := partition w
  match decodeControl f.opcode with
  | .error k => .error k
  | .ok c =>
    let data := registerRead s f.r1 f.r2
    let ext := sext16 f.imm16
    match resolveOp c.aluOp f.funct with
    | .error k => .error k
    | .ok o => .ok ⟨f, c, data.1, data.2, ext, alu o data.1 (selectOperand c.aluSrc data.2 ext)⟩

/-- Memory Access, Write-Back and Program-Counter Update (R108 to R119), their writes committed together (R120). -/
def commitStages (s : State) (e : Executed) : Host.Outcome State Fault Refusal :=
  match memoryAccess e.control.memRead e.control.memWrite e.alu.result e.data2 s.mem with
  | .next ms =>
    let value := writeBackValue e.control.memtoReg ms.memdata e.alu.result
    let dest := writeBackDest e.control.regDst e.fields.r2 e.fields.r3
    let npc := pcUpdate e.control.branch e.control.jump e.alu.zero s.pc e.fields.imm16 e.fields.target26
    .next ((writeBack e.control.regWrite dest value (s.setMem ms.mem)).setPc npc)
  | .fault k => halt k
  | .refused r => .refused r

/-- The step of R121, stage by stage. -/
def datapathStep (s : State) : Host.Outcome State Fault Refusal :=
  match s.fetch with
  | .error k => halt k
  | .ok w =>
    match executeStages s w with
    | .error k => halt k
    | .ok e => commitStages s e

end Sys2Proof.Machine
end

