-- ==== Sys2Proof/Machine/Boundary.lean ====
section
/-! DEFINITION. The block's boundary as hardware (41_datapath.md R123): what its outputs show during one step. The table is
the spec's decision D24. DEDUCED, log 21. -/

namespace Sys2Proof.Machine

/-- The outputs of one step. A port that is not used in the step is `none`, which is its enable at 0. -/
structure Boundary where
  /-- 1 when the step raised a halting condition. -/
  halt : Bool
  /-- Which one: 0 when none (60_exceptions.md R171). -/
  haltKind : BitVec 3
  /-- Instruction read port: the word index of the fetch. -/
  instrRead : Option (BitVec 14)
  /-- Data read port: the word index, when MemRead and admitted. -/
  dataRead : Option (BitVec 14)
  /-- Data write port: word index and data, when MemWrite and admitted. -/
  dataWrite : Option (BitVec 14 × Word)
  /-- Register read ports 1 and 2: the indices. -/
  regRead : Option (RegIdx × RegIdx)
  /-- Register write port: index and data, when Write-Back stores. -/
  regWrite : Option (RegIdx × Word)
  deriving DecidableEq, Repr

/-- A word index as the 14 bits of a memory port. -/
def portIndex (addr : Word) : BitVec 14 := addr.extractLsb' 2 14

/-- The outputs of a step that halts with every write enable at 0. -/
def haltedBoundary (k : Fault) (instrRead : Option (BitVec 14)) (regRead : Option (RegIdx × RegIdx)) : Boundary where
  halt := true
  haltKind := k.code
  instrRead := instrRead
  dataRead := none
  dataWrite := none
  regRead := regRead
  regWrite := none

/-- The register read ports are driven once the opcode is accepted (R93, R103). -/
def regReadPorts (w : Word) : Option (RegIdx × RegIdx) :=
  match decodeControl (partition w).opcode with
  | .error _ => none
  | .ok _ => some ((partition w).r1, (partition w).r2)

/-- The outputs of the stages after the ALU. -/
def commitBoundary (s : State) (w : Word) (e : Executed) : Boundary :=
  match memoryAccess e.control.memRead e.control.memWrite e.alu.result e.data2 s.mem with
  | .next ms =>
    { halt := false
      haltKind := 0
      instrRead := some (portIndex s.pc)
      dataRead := if e.control.memRead then some (portIndex e.alu.result) else none
      dataWrite := if e.control.memWrite then some (portIndex e.alu.result, e.data2) else none
      regRead := regReadPorts w
      regWrite :=
        if e.control.regWrite then
          some (writeBackDest e.control.regDst e.fields.r2 e.fields.r3,
            writeBackValue e.control.memtoReg ms.memdata e.alu.result)
        else none }
  | .fault k => haltedBoundary k (some (portIndex s.pc)) (regReadPorts w)
  | .refused _ =>
    -- no control row sets both memory flags, so no step comes here (R95)
    { halt := false, haltKind := 0, instrRead := some (portIndex s.pc), dataRead := none, dataWrite := none,
      regRead := regReadPorts w, regWrite := none }

/-- The block's outputs during the step from a state (R123). -/
def boundary (s : State) : Boundary :=
  match s.fetch with
  | .error k => haltedBoundary k none none
  | .ok w =>
    match executeStages s w with
    | .error k => haltedBoundary k (some (portIndex s.pc)) (regReadPorts w)
    | .ok e => commitBoundary s w e

end Sys2Proof.Machine
end

