-- ==== Sys2Proof/Safety.lean ====
section
/-! DEFINITION. The terms claims use: the invariant, what an instruction may write, the run, and a safe run. -/

namespace Sys2Proof.Machine

/-- What every completed step keeps: memory in canonical form and inside its cells, and the pc a multiple of 4
(10_state.md R15, R16; 20_memory.md R31). -/
structure State.Inv (s : State) : Prop where
  memWf : s.mem.wf
  memInRange : s.mem.inRange
  pcAligned : s.pc.toNat % 4 = 0

/-- The register an instruction writes, if any (10_state.md R14). -/
def destination : Instr → Option RegIdx
  | .add _ _ r3 | .sub _ _ r3 | .and _ _ r3 | .or _ _ r3 | .slt _ _ r3 | .sltu _ _ r3 => some r3
  | .addi _ r2 _ | .slti _ r2 _ | .sltiu _ r2 _ | .lui r2 _ | .lw _ r2 _ => some r2
  | .j _ | .beq _ _ _ | .sw _ _ _ => none

/-- The data address an instruction accesses, if any (20_memory.md R35). -/
def dataAddress (s : State) : Instr → Option Word
  | .lw r1 _ imm16 | .sw r1 _ imm16 => some (s.effectiveAddr r1 imm16)
  | .add .. | .sub .. | .and .. | .or .. | .slt .. | .sltu .. | .j .. | .beq .. | .addi .. | .slti .. | .sltiu .. | .lui .. => none

/-- The cell address an instruction stores to, if any (20_memory.md R34). -/
def storeAddress (s : State) : Instr → Option Nat
  | .sw r1 _ imm16 => some (4 * wordIndex (s.effectiveAddr r1 imm16))
  | .add .. | .sub .. | .and .. | .or .. | .slt .. | .sltu .. | .j .. | .beq .. | .addi .. | .slti .. | .sltiu .. | .lui .. | .lw .. => none

/-- `t` is `s` with register `d` holding `v` and the pc advanced by 4: every other register and every byte of memory is
as it was. -/
structure WritesOnly (s t : State) (d : RegIdx) (v : Word) : Prop where
  value : t.readReg d = v
  others : ∀ r, r ≠ d → t.readReg r = s.readReg r
  memory : ∀ a, t.mem.readByte a = s.mem.readByte a
  pc : t.pc = s.pc + 4

/-- `t` is `s` with the pc at `target`: every register and every byte of memory is as it was. -/
structure JumpsOnly (s t : State) (target : Word) : Prop where
  registers : ∀ r, t.readReg r = s.readReg r
  memory : ∀ a, t.mem.readByte a = s.mem.readByte a
  pc : t.pc = target

/-- `t` is reached from `s` by completed steps. -/
inductive Reaches : State → State → Prop where
  | refl (s : State) : Reaches s s
  | tail {s t u : State} : Reaches s t → step t = .next u → Reaches s u

/-- What the host sees of a run (60_exceptions.md R178). -/
structure RunResult where
  /-- The state after the last completed step. -/
  final : State
  /-- How many steps completed. -/
  completed : Nat
  /-- The halting condition that ended the run, if one did. -/
  halted : Option Fault
  deriving DecidableEq, Repr

/-- The run from a state, cut off after `fuel` steps: it ends at the first step that does not complete, in the state before
that step (R178; log 18). -/
def run : Nat → State → RunResult
  | 0, s => ⟨s, 0, none⟩
  | n + 1, s =>
    match step s with
    | .next t => { run n t with completed := (run n t).completed + 1 }
    | .fault k => ⟨s, 0, some k⟩
    | .refused _ => ⟨s, 0, none⟩

/-- A run of `n` steps none of which halts. -/
def SafeFor (n : Nat) (s : State) : Prop := (run n s).completed = n

end Sys2Proof.Machine
end

