-- ==== Sys2Proof/Certificates/Slice0/Obligations.lean ====
section
/-! DEFINITION. The statements for the provers. A docstring names the rule of spec/ a statement formalises, or says that it
rests on a choice and names the log entry. -/

open Sys2Proof Sys2Proof.Machine

/-! ### Encoding -/

/-- Words written out from the spec's encodings, one for each of the fourteen rows, two words with their ignored bits set, and
the two ways to be illegal (30_encoding.md, 95_test_vectors.md). -/
def Obligations.WrittenOutWordsDecode : Prop :=
  decodeWord 0x00221820 = .ok (.add 1 2 3) ∧ decodeWord 0x002218E0 = .ok (.add 1 2 3) ∧
  decodeWord 0x00222022 = .ok (.sub 1 2 4) ∧ decodeWord 0x00221824 = .ok (.and 1 2 3) ∧
  decodeWord 0x00222025 = .ok (.or 1 2 4) ∧ decodeWord 0x0041282A = .ok (.slt 2 1 5) ∧
  decodeWord 0x0041302B = .ok (.sltu 2 1 6) ∧ decodeWord 0x08000002 = .ok (.j 2) ∧
  decodeWord 0x10220003 = .ok (.beq 1 2 3) ∧ decodeWord 0x2021FFFF = .ok (.addi 1 1 0xFFFF) ∧
  decodeWord 0x28488000 = .ok (.slti 2 8 0x8000) ∧ decodeWord 0x2C29FFFF = .ok (.sltiu 1 9 0xFFFF) ∧
  decodeWord 0x3C071234 = .ok (.lui 7 0x1234) ∧ decodeWord 0x3FE78000 = .ok (.lui 7 0x8000) ∧
  decodeWord 0x8C23FFFC = .ok (.lw 1 3 0xFFFC) ∧ decodeWord 0xAC220004 = .ok (.sw 1 2 4) ∧
  decodeWord 0x00000000 = .error .funct ∧ decodeWord 0xFC000000 = .error .opcode

/-- R51: each field is its bits of the word, and the fields overlap as R51 says. -/
def Obligations.PartitionCutsEveryWord : Prop :=
  ∀ w : Word,
    (partition w).opcode.toNat = w.toNat / 2 ^ 26 ∧
    (partition w).r1.toNat = w.toNat / 2 ^ 21 % 2 ^ 5 ∧
    (partition w).r2.toNat = w.toNat / 2 ^ 16 % 2 ^ 5 ∧
    (partition w).r3.toNat = w.toNat / 2 ^ 11 % 2 ^ 5 ∧
    (partition w).funct.toNat = w.toNat % 2 ^ 6 ∧
    (partition w).imm16.toNat = w.toNat % 2 ^ 16 ∧
    (partition w).target26.toNat = w.toNat % 2 ^ 26 ∧
    (partition w).r3.toNat = (partition w).imm16.toNat / 2 ^ 11 ∧
    (partition w).funct.toNat = (partition w).imm16.toNat % 2 ^ 6 ∧
    (partition w).r1.toNat = (partition w).target26.toNat / 2 ^ 21 ∧
    (partition w).r2.toNat = (partition w).target26.toNat / 2 ^ 16 % 2 ^ 5 ∧
    (partition w).imm16.toNat = (partition w).target26.toNat % 2 ^ 16

/-- R56, R57: what every word decodes to, its fields read off by arithmetic. -/
def Obligations.DecoderReadsEveryRow : Prop :=
  ∀ w : Word,
    let op := w.toNat / 2 ^ 26
    let fn := w.toNat % 2 ^ 6
    let r1 : RegIdx := BitVec.ofNat 5 (w.toNat / 2 ^ 21)
    let r2 : RegIdx := BitVec.ofNat 5 (w.toNat / 2 ^ 16)
    let r3 : RegIdx := BitVec.ofNat 5 (w.toNat / 2 ^ 11)
    let imm16 : Imm16 := BitVec.ofNat 16 w.toNat
    (op = 0x00 → fn = 0x20 → decodeWord w = .ok (.add r1 r2 r3)) ∧
    (op = 0x00 → fn = 0x22 → decodeWord w = .ok (.sub r1 r2 r3)) ∧
    (op = 0x00 → fn = 0x24 → decodeWord w = .ok (.and r1 r2 r3)) ∧
    (op = 0x00 → fn = 0x25 → decodeWord w = .ok (.or r1 r2 r3)) ∧
    (op = 0x00 → fn = 0x2A → decodeWord w = .ok (.slt r1 r2 r3)) ∧
    (op = 0x00 → fn = 0x2B → decodeWord w = .ok (.sltu r1 r2 r3)) ∧
    (op = 0x00 → fn ∉ [0x20, 0x22, 0x24, 0x25, 0x2A, 0x2B] → decodeWord w = .error .funct) ∧
    (op = 0x02 → decodeWord w = .ok (.j (BitVec.ofNat 26 w.toNat))) ∧
    (op = 0x04 → decodeWord w = .ok (.beq r1 r2 imm16)) ∧
    (op = 0x08 → decodeWord w = .ok (.addi r1 r2 imm16)) ∧
    (op = 0x0A → decodeWord w = .ok (.slti r1 r2 imm16)) ∧
    (op = 0x0B → decodeWord w = .ok (.sltiu r1 r2 imm16)) ∧
    (op = 0x0F → decodeWord w = .ok (.lui r2 imm16)) ∧
    (op = 0x23 → decodeWord w = .ok (.lw r1 r2 imm16)) ∧
    (op = 0x2B → decodeWord w = .ok (.sw r1 r2 imm16)) ∧
    (op ∉ [0x00, 0x02, 0x04, 0x08, 0x0A, 0x0B, 0x0F, 0x23, 0x2B] → decodeWord w = .error .opcode)

/-- Decoding the encoding of any instruction, as a word and as bytes with any bytes after it, gives the instruction back, for
every value of every operand (30_encoding.md sections 1 to 3; the byte order is log 1). -/
def Obligations.DecodeOfEncodeIsTheInstruction : Prop :=
  ∀ i : Instr, decodeWord (encode i) = .ok i ∧ ∀ rest, decode (bytesOfWord (encode i) ++ rest) = .ok (i, rest)

/-- Encoding what a word decodes to gives the word with its ignored bits cleared, no other bit changed (R53's derivation;
log 15). -/
def Obligations.EncodeOfDecodeClearsIgnoredBits : Prop :=
  ∀ (w : Word) (i : Instr), decodeWord w = .ok i → encode i = w &&& usedBits i

/-- Words that agree on the bits an instruction uses decode alike: no word is rejected for its ignored bits (R53's
derivation; log 15). -/
def Obligations.IgnoredBitsDoNotMatter : Prop :=
  ∀ (w v : Word) (i : Instr), decodeWord w = .ok i → w &&& usedBits i = v &&& usedBits i → decodeWord v = .ok i

/-- A row's match and mask select exactly the words that decode to its mnemonic, and a word selects at most one row
(30_encoding.md sections 3 and 4). -/
def Obligations.TableRowsSelectTheirInstruction : Prop :=
  (∀ (w : Word), ∀ row ∈ opcodeTable,
    (w &&& row.mask = row.pattern ↔ ∃ i, decodeWord w = .ok i ∧ i.mnemonic = row.mnemonic)) ∧
  (∀ (w : Word), ∀ row ∈ opcodeTable, ∀ other ∈ opcodeTable,
    w &&& row.mask = row.pattern → w &&& other.mask = other.pattern → row = other)

/-- Every instruction has a well-formed spelling that assembles to it, and a negative immediate may be written as 16-bit hex
(the assembly syntax is the spec's decision D28; log 19). -/
def Obligations.SpellingAssemblesBack : Prop :=
  (∀ i : Instr, i.toAsm.assemble = some i) ∧
  (∀ op t s (v : Int), -32768 ≤ v → v < 0 →
    (AsmInstr.itype op t s v).assemble = (AsmInstr.itype op t s (v + 65536)).assemble)

/-- R58: a fetched word whose opcode is none of the nine halts the step, whatever the registers hold. -/
def Obligations.IllegalOpcodeHalts : Prop :=
  ∀ (s : State) (w : Word), w.toNat / 2 ^ 26 ∉ [0x00, 0x02, 0x04, 0x08, 0x0A, 0x0B, 0x0F, 0x23, 0x2B] →
    (s.fetch = .ok w → step s = .fault .illegalOpcode) ∧
    decodeControl (partition w).opcode = .error .illegalOpcode ∧
    executeStages s w = .error .illegalOpcode

/-- R59: a fetched word of opcode 0x00 whose funct is none of the six halts the step; the all-zero word is one. -/
def Obligations.IllegalFunctHalts : Prop :=
  (∀ (s : State) (w : Word), w.toNat / 2 ^ 26 = 0 → w.toNat % 2 ^ 6 ∉ [0x20, 0x22, 0x24, 0x25, 0x2A, 0x2B] →
    (s.fetch = .ok w → step s = .fault .illegalFunct) ∧
    executeStages s w = .error .illegalFunct) ∧
  (∀ s : State, s.fetch = .ok 0x00000000 → step s = .fault .illegalFunct)

/-! ### The ALU and the sign extender -/

/-- R72, R73: add and sub wrap, and a difference is zero exactly for equal operands. -/
def Obligations.AluAddAndSubWrap : Prop :=
  ∀ a b : Word,
    (alu .add a b).result.toNat = (a.toNat + b.toNat) % 2 ^ 32 ∧
    (alu .sub a b).result.toNat = (2 ^ 32 + a.toNat - b.toNat) % 2 ^ 32 ∧
    ((alu .sub a b).zero = true ↔ a = b)

/-- R74, R75: the comparisons are of the true signed and unsigned values. -/
def Obligations.AluComparesTrueValues : Prop :=
  ∀ a b : Word,
    (alu .slt a b).result = (if a.toInt < b.toInt then 1 else 0) ∧
    ((alu .slt a b).zero = true ↔ b.toInt ≤ a.toInt) ∧
    (alu .sltu a b).result = (if a.toNat < b.toNat then 1 else 0)

/-- The reduced AND: each reading's function, where the readings part, and what the hardware's AND is whichever reading it
takes (40_alu.md section 1, decision D14; the reading is free, log 5). -/
def Obligations.AluAndIsReduced : Prop :=
  (∀ a b : Word, andReduced .bitwiseThenNonzero a b = if a &&& b ≠ 0 then 1 else 0) ∧
  (∀ a b : Word, andReduced .logical a b = if a ≠ 0 ∧ b ≠ 0 then 1 else 0) ∧
  (∀ a b : Word, andReduced .bitwiseThenNonzero a b ≠ andReduced .logical a b ↔ a ≠ 0 ∧ b ≠ 0 ∧ a &&& b = 0) ∧
  (∀ a b : Word, ((alu .and a b).result = 0 ∨ (alu .and a b).result = 1) ∧
    (a &&& b ≠ 0 → (alu .and a b).result = 1) ∧ (a = 0 ∨ b = 0 → (alu .and a b).result = 0))

/-- R77: or is 0 only for two zero operands, and both readings of the reduction give this function. -/
def Obligations.AluOrIsReduced : Prop :=
  ∀ a b : Word,
    (alu .or a b).result = (if a ||| b ≠ 0 then 1 else 0) ∧
    (alu .or a b).result = (if a ≠ 0 ∨ b ≠ 0 then 1 else 0)

/-- R78, R79: shift-left-16 of B alone, the full complement of A alone, and no control row or funct code reaches not. -/
def Obligations.AluShiftAndNot : Prop :=
  (∀ a b : Word, (alu .shiftLeft16 a b).result.toNat = b.toNat % 2 ^ 16 * 2 ^ 16 ∧
    ((alu .shiftLeft16 a b).zero = true ↔ b.toNat % 2 ^ 16 = 0)) ∧
  (∀ a b : Word, (alu .not a b).result = ~~~a ∧ (alu .not a b).result.toNat = 2 ^ 32 - 1 - a.toNat ∧
    ((alu .not a b).zero = true ↔ a = 0xFFFFFFFF)) ∧
  (∀ (opcode : Opcode) (funct : Funct) (c : ControlVector), decodeControl opcode = .ok c → resolveOp c.aluOp funct ≠ .ok .not)

/-- R71: Zero says that the 32-bit result is 0, for every selector, the undefined ones included. -/
def Obligations.ZeroFlagSaysResultIsZero : Prop :=
  (∀ (sel : BitVec 4) (a b : Word), (aluBySelector sel a b).zero = true ↔ (aluBySelector sel a b).result = 0) ∧
  (∀ (op : AluOp) (a b : Word), (alu op a b).zero = true ↔ (alu op a b).result = 0) ∧
  (alu .add 0xFFFFFFFF 0x00000001).zero = true

/-- An undefined selector yields 0 with Zero set, and the eight operations have the eight lowest selectors (40_alu.md section
1; the numerals are decision D4, log 11). -/
def Obligations.UndefinedSelectorYieldsZero : Prop :=
  (∀ (sel : BitVec 4) (a b : Word), 8 ≤ sel.toNat →
    (aluBySelector sel a b).result = 0 ∧ (aluBySelector sel a b).zero = true) ∧
  (∀ (op : AluOp) (a b : Word), op.code.toNat < 8 ∧ aluBySelector op.code a b = alu op a b)

/-- R81: slt and sltu disagree exactly when the sign bits differ; the not law; and which operands each operation reads. -/
def Obligations.AluLaws : Prop :=
  (∀ a b : Word, (alu .slt a b).result ≠ (alu .sltu a b).result ↔ a.msb ≠ b.msb) ∧
  (∀ a b : Word, (alu .not a b).result = ~~~a ∧ ((alu .not a b).zero = true ↔ ~~~a = 0)) ∧
  (∀ op ∈ [AluOp.add, .sub, .slt, .sltu, .and, .or],
    (∃ a a' b, alu op a b ≠ alu op a' b) ∧ (∃ a b b', alu op a b ≠ alu op a b')) ∧
  ((∀ a a' b, alu .shiftLeft16 a b = alu .shiftLeft16 a' b) ∧ ∃ a b b', alu .shiftLeft16 a b ≠ alu .shiftLeft16 a b') ∧
  ((∀ a b b', alu .not a b = alu .not a b') ∧ ∃ a a' b, alu .not a b ≠ alu .not a' b) ∧
  (∀ sel a a' b b', aluSelect sel = none → aluBySelector sel a b = aluBySelector sel a' b')

/-- R82: the sign extension as an unsigned and as a signed number, its round trip, that the extender runs on every instruction
past the decoder, and that an immediate operand is always its output. -/
def Obligations.SignExtension : Prop :=
  (∀ v : Imm16,
    (sext16 v).toNat = (if v.toNat < 0x8000 then v.toNat else 0xFFFF0000 + v.toNat) ∧
    (sext16 v).toInt = (if v.toNat < 0x8000 then (v.toNat : Int) else (v.toNat : Int) - 65536) ∧
    (sext16 v).extractLsb' 0 16 = v) ∧
  (∀ (s : State) (w : Word) (e : Executed), executeStages s w = .ok e →
    e.ext = sext16 (partition w).imm16 ∧
    (e.control.aluSrc = .immediate → ∃ o, resolveOp e.control.aluOp (partition w).funct = .ok o ∧ e.alu = alu o e.data1 e.ext))

/-! ### The datapath's stages -/

/-- The row of load word as the source prints it, in numerals, and the observable signals of the other rows (41_datapath.md
section 4; the rows are decisions D5 to D13 and the numerals D3 and D4, log 9 and log 11). -/
def Obligations.ControlRows : Prop :=
  (∃ c, decodeControl 0x23 = .ok c ∧ c.memRead = true ∧ c.memtoReg.code = 1 ∧ c.aluSrc.code = 1 ∧ c.regWrite = true ∧
    c.regDst.code = 0 ∧ c.branch = false ∧ c.jump = false ∧ c.memWrite = false ∧ c.aluOp.code = 0) ∧
  (∃ c, decodeControl 0x00 = .ok c ∧ c.regWrite = true ∧ c.regDst = .rd ∧ c.memtoReg = .alu ∧ c.aluOp = .rtype ∧ c.aluSrc = .register ∧
    c.memRead = false ∧ c.memWrite = false ∧ c.branch = false ∧ c.jump = false) ∧
  (∃ c, decodeControl 0x02 = .ok c ∧ c.jump = true ∧ c.branch = false ∧ c.memRead = false ∧ c.memWrite = false ∧ c.regWrite = false) ∧
  (∃ c, decodeControl 0x04 = .ok c ∧ c.branch = true ∧ c.aluOp = .op .sub ∧ c.aluSrc = .register ∧ c.jump = false ∧
    c.memRead = false ∧ c.memWrite = false ∧ c.regWrite = false) ∧
  (∀ row ∈ [((0x08 : Opcode), AluOp.add), (0x0A, .slt), (0x0B, .sltu), (0x0F, .shiftLeft16)],
    ∃ c, decodeControl row.1 = .ok c ∧ c.aluOp = .op row.2 ∧ c.aluSrc = .immediate ∧ c.regDst = .rt ∧ c.memtoReg = .alu ∧
      c.regWrite = true ∧ c.memRead = false ∧ c.memWrite = false ∧ c.branch = false ∧ c.jump = false) ∧
  (∃ c, decodeControl 0x2B = .ok c ∧ c.memWrite = true ∧ c.memRead = false ∧ c.aluOp = .op .add ∧ c.aluSrc = .immediate ∧
    c.regWrite = false ∧ c.branch = false ∧ c.jump = false)

/-- The six properties of the control table on which the other stages rely (41_datapath.md section 4, derived there from the
decided rows; log 9). -/
def Obligations.ControlTableProperties : Prop :=
  ∀ (opcode : Opcode) (c : ControlVector), decodeControl opcode = .ok c →
    ¬ (c.memRead = true ∧ c.memWrite = true) ∧
    ¬ (c.branch = true ∧ c.jump = true) ∧
    (c.regWrite = true → c.regDst ≠ .dontCare ∧ c.memtoReg ≠ .dontCare) ∧
    (c.memtoReg = .memory → c.memRead = true) ∧
    (c.aluOp = .rtype → opcode = 0) ∧
    c.aluOp ≠ .op .not

/-- R103: Register Read gives the two stored values, on every instruction past the Control Decoder. -/
def Obligations.RegisterReadGivesStoredValues : Prop :=
  (∀ (s : State) (r1 r2 : RegIdx), registerRead s r1 r2 = (s.regs[r1.toNat]'r1.isLt, s.regs[r2.toNat]'r2.isLt)) ∧
  (∀ (s : State) (w : Word) (e : Executed), executeStages s w = .ok e →
    e.data1 = s.readReg (partition w).r1 ∧ e.data2 = s.readReg (partition w).r2)

/-- R106: the sentinel resolves by the funct table or halts, and any other ALUOp passes straight through. -/
def Obligations.OperationResolution : Prop :=
  (∀ (o : AluOp) (funct : Funct), resolveOp (.op o) funct = .ok o) ∧
  resolveOp .rtype 0x20 = .ok .add ∧ resolveOp .rtype 0x22 = .ok .sub ∧ resolveOp .rtype 0x24 = .ok .and ∧
  resolveOp .rtype 0x25 = .ok .or ∧ resolveOp .rtype 0x2A = .ok .slt ∧ resolveOp .rtype 0x2B = .ok .sltu ∧
  (∀ funct : Funct, funct.toNat ∉ [0x20, 0x22, 0x24, 0x25, 0x2A, 0x2B] → resolveOp .rtype funct = .error .illegalFunct)

/-- R110, R112, with the write of 41_datapath.md section 8: an admitted read gives the cell and leaves memory alone, an admitted
write replaces the cell and no other byte, and with neither flag nothing happens whatever the address. -/
def Obligations.MemoryAccessReadsWritesOrIdles : Prop :=
  ∀ (addr data2 : Word) (m : Memory),
    (addr.toNat % 4 = 0 → addr.toNat < 0xFFFF →
      memoryAccess true false addr data2 m = .next ⟨m.readWord addr.toNat, m⟩ ∧
      ∃ ms, memoryAccess false true addr data2 m = .next ms ∧ (m.wf → ms.mem.readWord addr.toNat = data2) ∧
        ∀ a, a < addr.toNat ∨ addr.toNat + 4 ≤ a → ms.mem.readByte a = m.readByte a) ∧
    ∃ ms, memoryAccess false false addr data2 m = .next ms ∧ ms.mem = m

/-- A read or a write at an address that is not admitted halts, and driving the component with both flags has no meaning
(20_memory.md sections 2 and 4; the unsigned bound is decision D17, log 8, the refusal is the model's, log 12). -/
def Obligations.MemoryAccessGate : Prop :=
  ∀ (addr data2 : Word) (m : Memory),
    (¬ (addr.toNat % 4 = 0 ∧ addr.toNat < 0xFFFF) →
      memoryAccess true false addr data2 m = .fault .badMemAccess ∧
      memoryAccess false true addr data2 m = .fault .badMemAccess) ∧
    memoryAccess true true addr data2 m = .refused .memReadAndWrite

/-- Write-Back does nothing without RegWrite, and with it stores the selected value in the selected register and changes nothing
else (41_datapath.md section 9). That a don't-care RegDst acts as rt and a don't-care MemtoReg as ALU is decision D15 (log 14). -/
def Obligations.WriteBackStores : Prop :=
  (∀ (dest : RegIdx) (value : Word) (s : State), writeBack false dest value s = s) ∧
  (∀ (regDst : RegDst) (memtoReg : MemtoReg) (r2 r3 : RegIdx) (memdata aluResult : Word) (s : State),
    let t := writeBack true (writeBackDest regDst r2 r3) (writeBackValue memtoReg memdata aluResult) s
    let dest := if regDst = .rd then r3 else r2
    t.readReg dest = (if memtoReg = .memory then memdata else aluResult) ∧
    (∀ r, r ≠ dest → t.readReg r = s.readReg r) ∧ t.mem = s.mem ∧ t.pc = s.pc)

/-- R117, R118, R119: pc + 4, then the branch offset when Branch and Zero are set, then the jump field under the top four bits
of the updated pc when Jump is set, which wins; no control row sets both. -/
def Obligations.PcUpdateOrder : Prop :=
  (∀ (branch jump zero : Bool) (pc : Word) (imm16 : Imm16) (target26 : Target26),
    let npc := if branch = true ∧ zero = true then pc + 4 + (sext16 imm16 <<< 2) else pc + 4
    pcUpdate branch jump zero pc imm16 target26 =
      if jump = true then (npc &&& 0xF0000000) ||| (target26.setWidth 32 <<< 2) else npc) ∧
  (∀ (opcode : Opcode) (c : ControlVector), decodeControl opcode = .ok c → ¬ (c.branch = true ∧ c.jump = true))

/-- The datapath built stage by stage and the instruction-level step are one function (41_datapath.md section 11). -/
def Obligations.DatapathAgreesWithStep : Prop :=
  ∀ s : State, datapathStep s = step s

/-! ### What each instruction does -/

/-- R130: add, its result, its frame, that it always completes, its encoding and its spelling. -/
def Obligations.AddWritesWrappedSum : Prop :=
  (∀ (s : State) (r1 r2 r3 : RegIdx), ∃ t v, exec (.add r1 r2 r3) s = .next t ∧ WritesOnly s t r3 v ∧
    v.toNat = ((s.readReg r1).toNat + (s.readReg r2).toNat) % 2 ^ 32) ∧
  (∀ w : Word, w &&& 0xFC00003F = 0x00000020 →
    decodeWord w = .ok (.add (w.extractLsb' 21 5) (w.extractLsb' 16 5) (w.extractLsb' 11 5))) ∧
  (∀ r1 r2 r3 : RegIdx, (Instr.add r1 r2 r3).toAsm = .rtype .add r3.toNat r1.toNat r2.toNat)

/-- R131: sub, minuend x[r1], as R130. -/
def Obligations.SubWritesWrappedDifference : Prop :=
  (∀ (s : State) (r1 r2 r3 : RegIdx), ∃ t v, exec (.sub r1 r2 r3) s = .next t ∧ WritesOnly s t r3 v ∧
    v.toNat = (2 ^ 32 + (s.readReg r1).toNat - (s.readReg r2).toNat) % 2 ^ 32) ∧
  (∀ w : Word, w &&& 0xFC00003F = 0x00000022 →
    decodeWord w = .ok (.sub (w.extractLsb' 21 5) (w.extractLsb' 16 5) (w.extractLsb' 11 5))) ∧
  (∀ r1 r2 r3 : RegIdx, (Instr.sub r1 r2 r3).toAsm = .rtype .sub r3.toNat r1.toNat r2.toNat)

/-- and: 1 or 0; 1 when the sources share a set bit, 0 when one is zero, and otherwise what the hardware's reading of the
reduction gives (42_rtype.md, decision D14; the reading is free, log 5). -/
def Obligations.AndWritesReducedAnd : Prop :=
  ∀ (s : State) (r1 r2 r3 : RegIdx), ∃ t v, exec (.and r1 r2 r3) s = .next t ∧ WritesOnly s t r3 v ∧
    (v = 0 ∨ v = 1) ∧
    (s.readReg r1 &&& s.readReg r2 ≠ 0 → v = 1) ∧
    (s.readReg r1 = 0 ∨ s.readReg r2 = 0 → v = 0) ∧
    v = andReduced config.andReduction (s.readReg r1) (s.readReg r2)

/-- R133: or, 1 unless both sources are 0, as R130. -/
def Obligations.OrWritesReducedOr : Prop :=
  (∀ (s : State) (r1 r2 r3 : RegIdx), ∃ t, exec (.or r1 r2 r3) s = .next t ∧
    WritesOnly s t r3 (if s.readReg r1 = 0 ∧ s.readReg r2 = 0 then 0 else 1)) ∧
  (∀ w : Word, w &&& 0xFC00003F = 0x00000025 →
    decodeWord w = .ok (.or (w.extractLsb' 21 5) (w.extractLsb' 16 5) (w.extractLsb' 11 5))) ∧
  (∀ r1 r2 r3 : RegIdx, (Instr.or r1 r2 r3).toAsm = .rtype .or r3.toNat r1.toNat r2.toNat)

/-- R134: slt, a signed comparison, as R130. -/
def Obligations.SltWritesSignedComparison : Prop :=
  (∀ (s : State) (r1 r2 r3 : RegIdx), ∃ t, exec (.slt r1 r2 r3) s = .next t ∧
    WritesOnly s t r3 (if (s.readReg r1).toInt < (s.readReg r2).toInt then 1 else 0)) ∧
  (∀ w : Word, w &&& 0xFC00003F = 0x0000002A →
    decodeWord w = .ok (.slt (w.extractLsb' 21 5) (w.extractLsb' 16 5) (w.extractLsb' 11 5))) ∧
  (∀ r1 r2 r3 : RegIdx, (Instr.slt r1 r2 r3).toAsm = .rtype .slt r3.toNat r1.toNat r2.toNat)

/-- R135: sltu, an unsigned comparison, as R130. -/
def Obligations.SltuWritesUnsignedComparison : Prop :=
  (∀ (s : State) (r1 r2 r3 : RegIdx), ∃ t, exec (.sltu r1 r2 r3) s = .next t ∧
    WritesOnly s t r3 (if (s.readReg r1).toNat < (s.readReg r2).toNat then 1 else 0)) ∧
  (∀ w : Word, w &&& 0xFC00003F = 0x0000002B →
    decodeWord w = .ok (.sltu (w.extractLsb' 21 5) (w.extractLsb' 16 5) (w.extractLsb' 11 5))) ∧
  (∀ r1 r2 r3 : RegIdx, (Instr.sltu r1 r2 r3).toAsm = .rtype .sltu r3.toNat r1.toNat r2.toNat)

/-- addi: the wrapped sum of the source and the signed immediate (43_immediate.md; the row is decision D8, log 9). -/
def Obligations.AddiWritesWrappedSum : Prop :=
  ∀ (s : State) (r1 r2 : RegIdx) (imm16 : Imm16), ∃ t, exec (.addi r1 r2 imm16) s = .next t ∧
    WritesOnly s t r2 (BitVec.ofInt 32 ((s.readReg r1).toInt + imm16.toInt))

/-- slti: a signed comparison with the signed immediate (43_immediate.md; the row is decision D9, log 9). -/
def Obligations.SltiWritesSignedComparison : Prop :=
  ∀ (s : State) (r1 r2 : RegIdx) (imm16 : Imm16), ∃ t, exec (.slti r1 r2 imm16) s = .next t ∧
    WritesOnly s t r2 (if (s.readReg r1).toInt < imm16.toInt then 1 else 0)

/-- sltiu: an unsigned comparison with the immediate after sign extension: 0x8000 and above stand for 0xFFFF8000 and above
(43_immediate.md; the row is decision D10, log 9). -/
def Obligations.SltiuWritesUnsignedComparison : Prop :=
  ∀ (s : State) (r1 r2 : RegIdx) (imm16 : Imm16), ∃ t, exec (.sltiu r1 r2 imm16) s = .next t ∧
    WritesOnly s t r2 (if (s.readReg r1).toNat <
      (if imm16.toNat < 0x8000 then imm16.toNat else 0xFFFF0000 + imm16.toNat) then 1 else 0)

/-- lui: the immediate in the upper half, zeros below (43_immediate.md; the row is decision D11, log 9). -/
def Obligations.LuiWritesUpperHalf : Prop :=
  ∀ (s : State) (r2 : RegIdx) (imm16 : Imm16), ∃ t v, exec (.lui r2 imm16) s = .next t ∧ WritesOnly s t r2 v ∧
    v.toNat = imm16.toNat * 2 ^ 16

/-- lw and sw: the effective address is the wrapped sum of the base and the signed displacement; at an admitted address lw
writes the cell to its register and sw replaces the cell and no other byte (44_load_store.md; decisions D12, D13 and D17,
log 8 and log 9). -/
def Obligations.LoadAndStoreComplete : Prop :=
  ∀ (s : State) (r1 r2 : RegIdx) (imm16 : Imm16),
    s.effectiveAddr r1 imm16 = BitVec.ofInt 32 ((s.readReg r1).toInt + imm16.toInt) ∧
    ((s.effectiveAddr r1 imm16).toNat % 4 = 0 → (s.effectiveAddr r1 imm16).toNat < 0xFFFF →
      (∃ t, exec (.lw r1 r2 imm16) s = .next t ∧
        WritesOnly s t r2 (s.mem.readWord (s.effectiveAddr r1 imm16).toNat)) ∧
      (∃ t, exec (.sw r1 r2 imm16) s = .next t ∧ (∀ r, t.readReg r = s.readReg r) ∧ t.pc = s.pc + 4 ∧
        (s.mem.wf → t.mem.readWord (s.effectiveAddr r1 imm16).toNat = s.readReg r2) ∧
        ∀ a, a < (s.effectiveAddr r1 imm16).toNat ∨ (s.effectiveAddr r1 imm16).toNat + 4 ≤ a →
          t.mem.readByte a = s.mem.readByte a))

/-- lw and sw halt with BadMemAccess at every other address (44_load_store.md; decision D17, log 8). -/
def Obligations.LoadAndStoreHaltElsewhere : Prop :=
  ∀ (s : State) (r1 r2 : RegIdx) (imm16 : Imm16),
    (s.effectiveAddr r1 imm16).toNat % 4 ≠ 0 ∨ 0xFFFF ≤ (s.effectiveAddr r1 imm16).toNat →
      exec (.lw r1 r2 imm16) s = .fault .badMemAccess ∧ exec (.sw r1 r2 imm16) s = .fault .badMemAccess

/-- beq: pc + 4, and four times the signed offset beyond it when the two registers are equal; nothing else changes
(45_control_transfer.md; the row is decision D7, log 9, the wrap is decision D18, log 10). -/
def Obligations.BeqBranchesOnEquality : Prop :=
  ∀ (s : State) (r1 r2 : RegIdx) (imm16 : Imm16), ∃ t, exec (.beq r1 r2 imm16) s = .next t ∧
    JumpsOnly s t (if s.readReg r1 = s.readReg r2
      then BitVec.ofInt 32 ((s.pc.toNat : Int) + 4 + 4 * imm16.toInt)
      else s.pc + 4)

/-- j: the jump field times 4, in the 256 MB region of pc + 4; nothing else changes (45_control_transfer.md; the row is
decision D6, log 9). -/
def Obligations.JumpReplacesThePc : Prop :=
  ∀ (s : State) (target26 : Target26), ∃ t p, exec (.j target26) s = .next t ∧ JumpsOnly s t p ∧
    p.toNat = (s.pc + 4).toNat / 2 ^ 28 * 2 ^ 28 + 4 * target26.toNat

/-! ### Whole-machine rules -/

/-- Register 0 is written and read like any other (10_state.md section 2), by the register operations, as add's destination and
as addi's source. What addi does rests on its row, decision D8 (log 9). -/
def Obligations.RegisterZeroIsOrdinary : Prop :=
  (∀ (s : State) (v : Word), (s.writeReg 0 v).readReg 0 = v) ∧
  (∀ (s : State) (r1 r2 : RegIdx), ∃ t, exec (.add r1 r2 0) s = .next t ∧ t.readReg 0 = s.readReg r1 + s.readReg r2) ∧
  (∀ (s : State) (r2 : RegIdx), ∃ t, exec (.addi 0 r2 0) s = .next t ∧ t.readReg r2 = s.readReg 0)

/-- What reset leaves: every register 0, the pc 0, every byte of memory 0, so that the first step halts with IllegalFunct. The
three values are the model's choice (log 2, log 3, log 4): the spec leaves them to the host. -/
def Obligations.ResetValues : Prop :=
  (∀ r, State.reset.readReg r = 0) ∧ State.reset.pc = 0 ∧ (∀ a, State.reset.mem.readByte a = 0) ∧
  step State.reset = .fault .illegalFunct

/-- The invariant holds after reset, and after a launch with canonical memory inside the cells and an aligned pc (the reset
values are the model's choice, log 2, log 3, log 4). -/
def Obligations.InvariantAtLaunch : Prop :=
  State.reset.Inv ∧
  (∀ (x : Vector Word 32) (m : Memory) (p : Word), m.wf → m.inRange → p.toNat % 4 = 0 → (State.launch x m p).Inv)

/-- Every completed step keeps the invariant: canonical memory, inside its cells, and an aligned pc (10_state.md section 3,
20_memory.md section 1; the canonical form is the model's own). -/
def Obligations.InvariantKeptByEveryStep : Prop :=
  ∀ s t : State, s.Inv → step s = .next t → t.Inv

/-- From an aligned pc no step a run reaches halts with MisalignedFetch (10_state.md section 3). -/
def Obligations.AlignedRunsNeverMisfetch : Prop :=
  ∀ s t : State, s.pc.toNat % 4 = 0 → Reaches s t → t.pc.toNat % 4 = 0 ∧ step t ≠ .fault .misalignedFetch

/-- A completed instruction leaves every register but its destination, and has at most one; sw, beq and j have none (10_state.md
section 2). -/
def Obligations.OnlyTheDestinationRegisterChanges : Prop :=
  (∀ (i : Instr) (s t : State), exec i s = .next t → ∀ r, destination i ≠ some r → t.readReg r = s.readReg r) ∧
  (∀ i : Instr, destination i = none ↔ i.mnemonic ∈ ["sw", "beq", "j"])

/-- R34: the only instruction that writes memory is sw; it replaces the whole cell at its address with its data register and
changes no other byte. -/
def Obligations.OnlyStoreWritesMemory : Prop :=
  ∀ (i : Instr) (s t : State), s.mem.wf → exec i s = .next t →
    (storeAddress s i = none → ∀ a, t.mem.readByte a = s.mem.readByte a) ∧
    (∀ p, storeAddress s i = some p →
      (∃ r1 r2 imm16, i = .sw r1 r2 imm16 ∧ p = (s.effectiveAddr r1 imm16).toNat ∧ t.mem.readWord p = s.readReg r2) ∧
      ∀ a, a < p ∨ p + 4 ≤ a → t.mem.readByte a = s.mem.readByte a)

/-- R33: a data read gives the cell and changes nothing, and only lw makes one: what any other instruction does to the
registers and the pc is the same whatever memory holds. -/
def Obligations.OnlyLoadReadsMemory : Prop :=
  (∀ (s : State) (addr : Word), addr.toNat % 4 = 0 → addr.toNat < 0xFFFF →
    s.load addr = .ok (s.mem.readWord addr.toNat)) ∧
  (∀ (s t : State) (r1 r2 : RegIdx) (imm16 : Imm16), exec (.lw r1 r2 imm16) s = .next t → t.mem = s.mem) ∧
  (∀ (i : Instr) (s t : State) (m : Memory), i.mnemonic ≠ "lw" → exec i s = .next t →
    ∃ u, exec i (s.setMem m) = .next u ∧ u.regs = t.regs ∧ u.pc = t.pc)

/-- An executing instruction halts only as lw or sw, only with BadMemAccess, and exactly at an address that is not admitted
(42_rtype.md, 43_immediate.md, 44_load_store.md; decision D17, log 8). -/
def Obligations.OnlyLoadAndStoreHalt : Prop :=
  ∀ (i : Instr) (s : State) (k : Fault), exec i s = .fault k ↔
    k = .badMemAccess ∧ ∃ a, dataAddress s i = some a ∧ ¬ (a.toNat % 4 = 0 ∧ a.toNat < 0xFFFF)

/-- No instruction, and so no step, is refused: every word executes or halts (30_encoding.md section 4). -/
def Obligations.NothingIsRefused : Prop :=
  (∀ (i : Instr) (s : State) (r : Refusal), exec i s ≠ .refused r) ∧ (∀ (s : State) (r : Refusal), step s ≠ .refused r)

/-- When a step raises each halting condition, the first in stage order (60_exceptions.md section 1; FetchOutOfRange is decision
D16, log 7, and the unsigned address test decision D17, log 8). -/
def Obligations.HaltsInStageOrder : Prop :=
  ∀ s : State,
    let w := s.mem.readWord s.pc.toNat
    let op := w.toNat / 2 ^ 26
    let fetched := s.pc.toNat % 4 = 0 ∧ s.pc.toNat < 0x10000
    let addr := s.effectiveAddr (BitVec.ofNat 5 (w.toNat / 2 ^ 21)) (BitVec.ofNat 16 w.toNat)
    (step s = .fault .misalignedFetch ↔ s.pc.toNat % 4 ≠ 0) ∧
    (step s = .fault .fetchOutOfRange ↔ s.pc.toNat % 4 = 0 ∧ 0x10000 ≤ s.pc.toNat) ∧
    (step s = .fault .illegalOpcode ↔ fetched ∧ op ∉ [0x00, 0x02, 0x04, 0x08, 0x0A, 0x0B, 0x0F, 0x23, 0x2B]) ∧
    (step s = .fault .illegalFunct ↔ fetched ∧ op = 0x00 ∧ w.toNat % 2 ^ 6 ∉ [0x20, 0x22, 0x24, 0x25, 0x2A, 0x2B]) ∧
    (step s = .fault .badMemAccess ↔ fetched ∧ (op = 0x23 ∨ op = 0x2B) ∧ ¬ (addr.toNat % 4 = 0 ∧ addr.toNat < 0xFFFF))

/-- When the four bytes at the pc decode to an instruction, the step is that instruction executed in this state; the pc moves
only inside the instruction (41_datapath.md section 11; the byte order is log 1). -/
def Obligations.StepRunsTheDecodedInstruction : Prop :=
  ∀ (s : State) (i : Instr), s.pc.toNat % 4 = 0 → s.pc.toNat < 0x10000 →
    decode [s.mem.readByte s.pc.toNat, s.mem.readByte (s.pc.toNat + 1), s.mem.readByte (s.pc.toNat + 2),
      s.mem.readByte (s.pc.toNat + 3)] = .ok (i, []) →
    step s = exec i s

/-- A word placed where the next step fetches is the instruction the next step runs, and the registers are as they were
(70_reset_and_hazards.md section 2; how a program comes to run is log 17). -/
def Obligations.PlacedWordRunsNext : Prop :=
  ∀ (s : State) (nbits w : Nat) (i : Instr), s.mem.wf → decodeTableWord nbits w = some i →
    step (s.withFetchWord nbits w) = exec i (s.withFetchWord nbits w) ∧
    (s.withFetchWord nbits w).regs = s.regs ∧
    (s.pc.toNat % 4 = 0 → s.pc.toNat < 0x10000 → (s.withFetchWord nbits w).pc = s.pc)

/-- A load from the address just stored to gives what was stored (20_memory.md section 5). -/
def Obligations.LoadAfterStore : Prop :=
  ∀ (s t : State) (r1 r2 r3 : RegIdx) (imm16 : Imm16), s.mem.wf → exec (.sw r1 r2 imm16) s = .next t →
    ∃ u, exec (.lw r1 r3 imm16) t = .next u ∧ u.readReg r3 = s.readReg r2

/-- A store is seen by every later fetch of its cell, the very next one included, and by no fetch of another cell
(20_memory.md section 5). -/
def Obligations.StoreIsSeenByFetch : Prop :=
  ∀ (s t u : State) (r1 r2 : RegIdx) (imm16 : Imm16), s.mem.wf → exec (.sw r1 r2 imm16) s = .next t → u.mem = t.mem →
    (u.pc = s.effectiveAddr r1 imm16 → u.fetch = .ok (s.readReg r2)) ∧
    (u.pc ≠ s.effectiveAddr r1 imm16 → u.fetch = (u.setMem s.mem).fetch)

/-- A run that ends, ends in a state reached by completed steps whose own step halts, and running longer changes nothing; a run
is safe for n steps exactly when no halt ended it (60_exceptions.md sections 1 and 3; decisions D25 and D29, log 18). -/
def Obligations.RunEndsAtTheFirstHalt : Prop :=
  (∀ (n : Nat) (s : State) (k : Fault), (run n s).halted = some k →
    step (run n s).final = .fault k ∧ Reaches s (run n s).final ∧ (run n s).completed < n ∧ ∀ m, run (n + m) s = run n s) ∧
  (∀ (n : Nat) (s : State), SafeFor n s ↔ (run n s).halted = none)

/-- The halt codes (60_exceptions.md section 1; the numerals are decision D20, log 11): 1 to 5, all different, and 0 is none. -/
def Obligations.HaltCodes : Prop :=
  Fault.misalignedFetch.code = 1 ∧ Fault.illegalOpcode.code = 2 ∧ Fault.illegalFunct.code = 3 ∧
  Fault.badMemAccess.code = 4 ∧ Fault.fetchOutOfRange.code = 5 ∧
  (∀ k l : Fault, k.code = l.code → k = l) ∧ (∀ k : Fault, k.code ≠ 0)

/-- The block's outputs say what the step does: in a completed step the write ports carry exactly the writes made, and in a
halting step no write port is enabled and the kind is on halt_kind (41_datapath.md section 12; decision D24, log 21). -/
def Obligations.BoundaryShowsTheStep : Prop :=
  ∀ s : State,
    (∀ t, step s = .next t →
      (boundary s).halt = false ∧ (boundary s).haltKind = 0 ∧ (boundary s).instrRead = some (portIndex s.pc) ∧
      (∀ r, t.readReg r =
        match (boundary s).regWrite with
        | some (d, v) => if r = d then v else s.readReg r
        | none => s.readReg r) ∧
      t.mem =
        match (boundary s).dataWrite with
        | some (a, v) => s.mem.writeWord (4 * a.toNat) v
        | none => s.mem) ∧
    (∀ k, step s = .fault k →
      (boundary s).halt = true ∧ (boundary s).haltKind = k.code ∧ (boundary s).dataWrite = none ∧
      (boundary s).regWrite = none)
end

