-- ==== Sys2Proof/Laws/Decode.lean ====
section
/-! SUPPORT. The fields of an encoded word, and the bytes of a word. -/

namespace Sys2Proof

theorem partition_encodeR (funct : Funct) (r1 r2 r3 : RegIdx) :
    (partition (encodeR funct r1 r2 r3)).opcode = 0 ∧ (partition (encodeR funct r1 r2 r3)).r1 = r1 ∧
    (partition (encodeR funct r1 r2 r3)).r2 = r2 ∧ (partition (encodeR funct r1 r2 r3)).r3 = r3 ∧
    (partition (encodeR funct r1 r2 r3)).funct = funct := by
  simp only [partition, encodeR]
  refine ⟨?_, ?_, ?_, ?_, ?_⟩ <;> ext i hi <;> interval_cases i <;> simp

theorem partition_encodeI (op : Opcode) (r1 r2 : RegIdx) (imm16 : Imm16) :
    (partition (encodeI op r1 r2 imm16)).opcode = op ∧ (partition (encodeI op r1 r2 imm16)).r1 = r1 ∧
    (partition (encodeI op r1 r2 imm16)).r2 = r2 ∧ (partition (encodeI op r1 r2 imm16)).imm16 = imm16 := by
  simp only [partition, encodeI]
  refine ⟨?_, ?_, ?_, ?_⟩ <;> ext i hi <;> interval_cases i <;> simp

theorem partition_encodeLui (op : Opcode) (r2 : RegIdx) (imm16 : Imm16) :
    (partition (encodeLui op r2 imm16)).opcode = op ∧ (partition (encodeLui op r2 imm16)).r2 = r2 ∧
    (partition (encodeLui op r2 imm16)).imm16 = imm16 := by
  simp only [partition, encodeLui]
  refine ⟨?_, ?_, ?_⟩ <;> ext i hi <;> interval_cases i <;> simp

theorem partition_encodeJ (op : Opcode) (target26 : Target26) :
    (partition (encodeJ op target26)).opcode = op ∧ (partition (encodeJ op target26)).target26 = target26 := by
  simp only [partition, encodeJ]
  refine ⟨?_, ?_⟩ <;> ext i hi <;> interval_cases i <;> simp

/-! ### A word from its fields -/

theorem encodeR_partition (w : Word) :
    encodeR (partition w).funct (partition w).r1 (partition w).r2 (partition w).r3 = w &&& 0x03FFF83F := by
  simp only [encodeR, partition]
  ext i hi; interval_cases i <;> simp

theorem encodeI_partition (w : Word) :
    encodeI (partition w).opcode (partition w).r1 (partition w).r2 (partition w).imm16 = w := by
  simp only [encodeI, partition]
  ext i hi; interval_cases i <;> simp

theorem encodeLui_partition (w : Word) :
    encodeLui (partition w).opcode (partition w).r2 (partition w).imm16 = w &&& 0xFC1FFFFF := by
  simp only [encodeLui, partition]
  ext i hi; interval_cases i <;> simp

theorem encodeJ_partition (w : Word) : encodeJ (partition w).opcode (partition w).target26 = w := by
  simp only [encodeJ, partition]
  ext i hi; interval_cases i <;> simp

/-- Under opcode 0x00 the top six bits of a word are zero. -/
theorem and_of_opcode_zero {w : Word} (h : (partition w).opcode = 0) : w &&& 0x03FFF83F = w &&& 0xFFFFF83F := by
  have low : w &&& 0x03FFFFFF = w := by
    rw [← encodeJ_partition w, h]
    simp only [encodeJ]
    ext i hi; interval_cases i <;> simp
  rw [← low, BitVec.and_assoc, BitVec.and_assoc]; congr 1

/-! ### Bytes -/

theorem bytesOfWord_wordOfBytes (b0 b1 b2 b3 : Byte) :
    bytesOfWord (wordOfBytes b0 b1 b2 b3) = [b0, b1, b2, b3] := by
  simp only [bytesOfWord, byteOfWord, wordOfBytes, List.cons.injEq, and_true]
  refine ⟨?_, ?_, ?_, ?_⟩ <;> ext i hi <;> interval_cases i <;> simp

theorem wordOfBytes_byteOfWord (w : Word) :
    wordOfBytes (byteOfWord w 0) (byteOfWord w 1) (byteOfWord w 2) (byteOfWord w 3) = w := by
  simp only [byteOfWord, wordOfBytes]
  ext i hi; interval_cases i <;> simp

/-- The bytes of a word decode as the word does. -/
theorem decode_bytesOfWord (w : Word) :
    decode (bytesOfWord w) = match decodeWord w with | .ok i => .ok (i, []) | .error e => .error (.illegal e) := by
  cases h : decodeWord w <;> simp [decode, bytesOfWord, wordOfBytes_byteOfWord, h]

end Sys2Proof
end

