-- ==== Sys2Proof/Laws/Memory.lean ====
section
/-! SUPPORT. The laws of memory: a read after a write, the canonical form kept, and equal memories are equal data. -/

namespace Sys2Proof.Machine

/-! ### Bytes -/

@[simp] theorem Memory.readByte_nil (k : Nat) : Memory.readByte [] k = Memory.unlistedByte := rfl

/-- An address below every listed one is unlisted. -/
theorem Memory.readByte_of_lt_all {m : Memory} {k : Nat} (h : ∀ c ∈ m, k < c.1) :
    m.readByte k = Memory.unlistedByte := by
  induction m with
  | nil => rfl
  | cons c rest ih =>
    have hc : c.1 ≠ k := Nat.ne_of_gt (h c (by simp))
    simp [Memory.readByte, hc, ih fun d hd => h d (by simp [hd])]

/-- A write leaves every other byte as it was; no canonical form is needed. -/
theorem Memory.readByte_writeByte_of_ne (m : Memory) {k j : Nat} (v : Byte) (h : j ≠ k) :
    (m.writeByte k v).readByte j = m.readByte j := by
  induction m with
  | nil =>
    by_cases hv : v = Memory.unlistedByte <;> simp [Memory.writeByte, Memory.readByte, hv, Ne.symm h]
  | cons c rest ih =>
    obtain ⟨a, u⟩ := c
    by_cases hlt : k < a
    · by_cases hv : v = Memory.unlistedByte <;> simp [Memory.writeByte, Memory.readByte, hlt, hv, Ne.symm h]
    · by_cases heq : k = a
      · subst heq
        by_cases hv : v = Memory.unlistedByte <;> simp [Memory.writeByte, Memory.readByte, hv, Ne.symm h]
      · simp [Memory.writeByte, Memory.readByte, hlt, heq, ih]

/-- The tail of a canonical memory is canonical, and its addresses lie above the head's. -/
theorem Memory.wf_cons {c : Host.Cell} {rest : Memory} (h : Memory.wf (c :: rest)) :
    Memory.wf rest ∧ (∀ d ∈ rest, c.1 < d.1) ∧ c.2 ≠ Memory.unlistedByte := by
  obtain ⟨hp, hv⟩ := h
  rw [List.pairwise_cons] at hp
  exact ⟨⟨hp.2, fun d hd => hv d (by simp [hd])⟩, hp.1, hv c (by simp)⟩

/-- A read of the byte just written, in a canonical memory. -/
theorem Memory.readByte_writeByte_self {m : Memory} (hm : m.wf) (k : Nat) (v : Byte) :
    (m.writeByte k v).readByte k = v := by
  induction m with
  | nil => by_cases hv : v = Memory.unlistedByte <;> simp [Memory.writeByte, Memory.readByte, hv]
  | cons c rest ih =>
    obtain ⟨a, u⟩ := c
    obtain ⟨hrest, habove, -⟩ := Memory.wf_cons hm
    have hgone {b : Nat} (hb : b ≤ a) : Memory.readByte rest b = Memory.unlistedByte :=
      Memory.readByte_of_lt_all fun d hd => Nat.lt_of_le_of_lt hb (habove d hd)
    by_cases hlt : k < a
    · by_cases hv : v = Memory.unlistedByte <;>
        simp [Memory.writeByte, Memory.readByte, hlt, hv, Nat.ne_of_gt hlt, hgone (Nat.le_of_lt hlt)]
    · by_cases heq : k = a
      · subst heq
        by_cases hv : v = Memory.unlistedByte <;> simp [Memory.writeByte, Memory.readByte, hv, hgone (Nat.le_refl k)]
      · simp [Memory.writeByte, Memory.readByte, hlt, heq, Ne.symm heq, ih hrest]

/-- A read after a write. -/
theorem Memory.readByte_writeByte {m : Memory} (hm : m.wf) (k j : Nat) (v : Byte) :
    (m.writeByte k v).readByte j = if j = k then v else m.readByte j := by
  split
  · next h => rw [h, Memory.readByte_writeByte_self hm]
  · next h => exact Memory.readByte_writeByte_of_ne m v h

/-- Every listed cell of a written memory is the written one or an old one. -/
theorem Memory.mem_writeByte {m : Memory} {k : Nat} {v : Byte} {c : Host.Cell} (h : c ∈ m.writeByte k v) :
    (c = (k, v) ∧ v ≠ Memory.unlistedByte) ∨ c ∈ m := by
  induction m with
  | nil =>
    by_cases hv : v = Memory.unlistedByte <;> simp_all [Memory.writeByte]
  | cons d rest ih =>
    obtain ⟨a, u⟩ := d
    by_cases hlt : k < a
    · by_cases hv : v = Memory.unlistedByte <;> simp_all [Memory.writeByte]
    · by_cases heq : k = a
      · by_cases hv : v = Memory.unlistedByte
        · exact .inr (by simp_all [Memory.writeByte])
        · simp [Memory.writeByte, heq, hv] at h
          exact h.elim (fun h => .inl ⟨by rw [h, heq], hv⟩) fun h => .inr (by simp [h])
      · simp [Memory.writeByte, hlt, heq] at h
        exact h.elim (fun h => .inr (by simp [h])) fun h => (ih h).imp_right (by simp +contextual)

/-- A write keeps the canonical form. -/
theorem Memory.writeByte_wf {m : Memory} (hm : m.wf) (k : Nat) (v : Byte) : (m.writeByte k v).wf := by
  refine ⟨?_, fun c hc => ?_⟩
  · induction m with
    | nil => by_cases hv : v = Memory.unlistedByte <;> simp [Memory.writeByte, hv]
    | cons d rest ih =>
      obtain ⟨a, u⟩ := d
      obtain ⟨hrest, habove, -⟩ := Memory.wf_cons hm
      by_cases hlt : k < a
      · by_cases hv : v = Memory.unlistedByte
        · simpa [Memory.writeByte, hlt, hv] using hm.1
        · have : ∀ c ∈ ((a, u) :: rest : Memory), k < c.1 := by
            rintro c (_ | ⟨_, hc⟩)
            · exact hlt
            · exact Nat.lt_trans hlt (habove c hc)
          simpa [Memory.writeByte, hlt, hv] using (List.pairwise_cons.mpr ⟨this, hm.1⟩ : List.Pairwise _ ((k, v) :: (a, u) :: rest))
      · by_cases heq : k = a
        · subst heq
          by_cases hv : v = Memory.unlistedByte
          · simpa [Memory.writeByte, hv] using hrest.1
          · simpa [Memory.writeByte, hv] using (List.pairwise_cons.mpr ⟨habove, hrest.1⟩ : List.Pairwise _ ((k, v) :: rest))
        · have hka : a < k := by omega
          simp only [Memory.writeByte, hlt, heq, if_false]
          refine List.pairwise_cons.mpr ⟨fun c hc => ?_, ih hrest⟩
          rcases Memory.mem_writeByte hc with ⟨rfl, -⟩ | hc
          · exact hka
          · exact habove c hc
  · rcases Memory.mem_writeByte hc with ⟨rfl, hv⟩ | hc
    · exact hv
    · exact hm.2 c hc

/-- A write inside the cells keeps the memory inside the cells. -/
theorem Memory.writeByte_inRange {m : Memory} (hm : m.inRange) {k : Nat} (hk : k < 4 * config.memWords) (v : Byte) :
    (m.writeByte k v).inRange := by
  intro c hc
  rcases Memory.mem_writeByte hc with ⟨rfl, -⟩ | hc
  · exact hk
  · exact hm c hc

/-- Canonical memories that read the same everywhere are the same data. -/
theorem Memory.ext_of_readByte {m n : Memory} (hm : m.wf) (hn : n.wf) (h : ∀ k, m.readByte k = n.readByte k) : m = n := by
  induction m generalizing n with
  | nil =>
    cases n with
    | nil => rfl
    | cons d n' => exact absurd (by simpa [Memory.readByte] using (h d.1).symm) (Memory.wf_cons hn).2.2
  | cons c m' ih =>
    obtain ⟨hm', hcm, hc⟩ := Memory.wf_cons hm
    cases n with
    | nil => exact absurd (by simpa [Memory.readByte] using h c.1) hc
    | cons d n' =>
      obtain ⟨hn', hdn, hd⟩ := Memory.wf_cons hn
      have hfst : c.1 = d.1 := by
        rcases Nat.lt_trichotomy c.1 d.1 with hlt | heq | hgt
        · have := h c.1
          rw [Memory.readByte_of_lt_all (m := d :: n') (by
            rintro e (_ | ⟨_, he⟩)
            · exact hlt
            · exact Nat.lt_trans hlt (hdn e he))] at this
          exact absurd (by simpa [Memory.readByte] using this) hc
        · exact heq
        · have := h d.1
          rw [Memory.readByte_of_lt_all (m := c :: m') (by
            rintro e (_ | ⟨_, he⟩)
            · exact hgt
            · exact Nat.lt_trans hgt (hcm e he))] at this
          exact absurd (by simpa [Memory.readByte] using this.symm) hd
      have hsnd : c.2 = d.2 := by simpa [Memory.readByte, hfst] using h c.1
      have hcd : c = d := Prod.ext hfst hsnd
      subst hcd
      congr 1
      refine ih hm' hn' fun k => ?_
      by_cases hk : c.1 = k
      · rw [Memory.readByte_of_lt_all (by simpa [← hk] using hcm), Memory.readByte_of_lt_all (by simpa [← hk] using hdn)]
      · simpa [Memory.readByte, hk] using h k

/-! ### Cells -/

/-- The bytes outside the written cell. -/
theorem Memory.readByte_writeWord_of_ne (m : Memory) {a j : Nat} (v : Word) (h : j < a ∨ a + 4 ≤ j) :
    (m.writeWord a v).readByte j = m.readByte j := by
  simp only [Memory.writeWord]
  rw [Memory.readByte_writeByte_of_ne _ _ (by omega), Memory.readByte_writeByte_of_ne _ _ (by omega),
    Memory.readByte_writeByte_of_ne _ _ (by omega), Memory.readByte_writeByte_of_ne _ _ (by omega)]

/-- A cell write keeps the canonical form. -/
theorem Memory.writeWord_wf {m : Memory} (hm : m.wf) (a : Nat) (v : Word) : (m.writeWord a v).wf :=
  Memory.writeByte_wf (Memory.writeByte_wf (Memory.writeByte_wf (Memory.writeByte_wf hm _ _) _ _) _ _) _ _

/-- A cell write inside the cells keeps the memory inside the cells. -/
theorem Memory.writeWord_inRange {m : Memory} (hm : m.inRange) {a : Nat} (ha : a + 3 < 4 * config.memWords) (v : Word) :
    (m.writeWord a v).inRange :=
  Memory.writeByte_inRange (Memory.writeByte_inRange (Memory.writeByte_inRange (Memory.writeByte_inRange hm
    (by omega) _) (by omega) _) (by omega) _) ha _

/-- The cell just written reads as what was written (20_memory.md R34, R41). -/
theorem Memory.readWord_writeWord_self {m : Memory} (hm : m.wf) (a : Nat) (v : Word) :
    (m.writeWord a v).readWord a = v := by
  have h0 := Memory.writeByte_wf hm a (byteOfWord v 0)
  have h1 := Memory.writeByte_wf h0 (a + 1) (byteOfWord v 1)
  have h2 := Memory.writeByte_wf h1 (a + 2) (byteOfWord v 2)
  simp only [Memory.readWord, Memory.writeWord]
  simp only [Memory.readByte_writeByte hm, Memory.readByte_writeByte h0, Memory.readByte_writeByte h1,
    Memory.readByte_writeByte h2]
  simpa using wordOfBytes_byteOfWord v

/-- Every other cell reads as before (R34). -/
theorem Memory.readWord_writeWord_of_ne (m : Memory) {a b : Nat} (v : Word) (h : b + 4 ≤ a ∨ a + 4 ≤ b) :
    (m.writeWord a v).readWord b = m.readWord b := by
  simp only [Memory.readWord]
  rw [Memory.readByte_writeWord_of_ne _ _ (by omega), Memory.readByte_writeWord_of_ne _ _ (by omega),
    Memory.readByte_writeWord_of_ne _ _ (by omega), Memory.readByte_writeWord_of_ne _ _ (by omega)]

/-- Reset memory is canonical. -/
theorem Memory.reset_wf : State.reset.mem.wf := by decide

end Sys2Proof.Machine
end

