-- ==== Sys2Proof/Laws/State.lean ====
section
/-! SUPPORT. The field of every state update, and the register file's read-after-write. -/

namespace Sys2Proof.Machine

@[simp] theorem State.writeReg_pc (s : State) (i : RegIdx) (v : Word) : (s.writeReg i v).pc = s.pc := rfl
@[simp] theorem State.writeReg_mem (s : State) (i : RegIdx) (v : Word) : (s.writeReg i v).mem = s.mem := rfl
@[simp] theorem State.setPc_pc (s : State) (t : Word) : (s.setPc t).pc = t := rfl
@[simp] theorem State.setPc_mem (s : State) (t : Word) : (s.setPc t).mem = s.mem := rfl
@[simp] theorem State.setPc_regs (s : State) (t : Word) : (s.setPc t).regs = s.regs := rfl
@[simp] theorem State.setPc_readReg (s : State) (t : Word) (i : RegIdx) : (s.setPc t).readReg i = s.readReg i := rfl
@[simp] theorem State.setMem_pc (s : State) (m : Memory) : (s.setMem m).pc = s.pc := rfl
@[simp] theorem State.setMem_mem (s : State) (m : Memory) : (s.setMem m).mem = m := rfl
@[simp] theorem State.setMem_regs (s : State) (m : Memory) : (s.setMem m).regs = s.regs := rfl
@[simp] theorem State.setMem_readReg (s : State) (m : Memory) (i : RegIdx) : (s.setMem m).readReg i = s.readReg i := rfl
@[simp] theorem State.advance_pc (s : State) : s.advance.pc = s.pc + 4 := rfl
@[simp] theorem State.advance_mem (s : State) : s.advance.mem = s.mem := rfl
@[simp] theorem State.advance_regs (s : State) : s.advance.regs = s.regs := rfl
@[simp] theorem State.advance_readReg (s : State) (i : RegIdx) : s.advance.readReg i = s.readReg i := rfl
@[simp] theorem State.launch_pc (x : Vector Word 32) (m : Memory) (p : Word) : (State.launch x m p).pc = p := rfl
@[simp] theorem State.launch_mem (x : Vector Word 32) (m : Memory) (p : Word) : (State.launch x m p).mem = m := rfl
@[simp] theorem State.launch_regs (x : Vector Word 32) (m : Memory) (p : Word) : (State.launch x m p).regs = x := rfl
@[simp] theorem State.setMem_self (s : State) : s.setMem s.mem = s := rfl

/-- A read after a write, of any register, register 0 included (10_state.md R13). -/
@[simp] theorem State.writeReg_readReg (s : State) (i j : RegIdx) (v : Word) :
    (s.writeReg i v).readReg j = if i = j then v else s.readReg j := by
  simp only [State.readReg, State.writeReg, Vector.getElem_set, BitVec.toNat_inj]

theorem State.writeReg_readReg_self (s : State) (i : RegIdx) (v : Word) : (s.writeReg i v).readReg i = v := by
  simp

theorem State.writeReg_readReg_of_ne (s : State) {i j : RegIdx} (v : Word) (h : j ≠ i) :
    (s.writeReg i v).readReg j = s.readReg j := by
  simp [Ne.symm h]

/-- Two register files that read the same everywhere are the same. -/
theorem State.regs_ext {s t : State} (h : ∀ i, s.readReg i = t.readReg i) : s.regs = t.regs := by
  apply Vector.ext
  intro n hn
  have := h (BitVec.ofNat 5 n)
  simpa [State.readReg, Nat.mod_eq_of_lt hn] using this

/-- Every register reads 0 after reset (log 3). -/
@[simp] theorem State.reset_readReg (i : RegIdx) : State.reset.readReg i = 0 := by
  simp [State.readReg, State.reset]

end Sys2Proof.Machine
end

