-- ==== Sys2Proof/Laws/Ops.lean ====
section
/-! SUPPORT. What each shared operation can do, said once. -/

namespace Sys2Proof.Machine

theorem config_memBound : config.memBound = 65535 := rfl
theorem config_memWords : config.memWords = 16384 := rfl

@[simp] theorem aligned_iff (a : Word) : aligned a = true ↔ a.toNat % 4 = 0 := by
  simp [aligned, ← BitVec.toNat_inj, BitVec.extractLsb'_toNat]

/-- The cell of an aligned address begins at the address. -/
theorem four_mul_wordIndex {a : Word} (h : a.toNat % 4 = 0) : 4 * wordIndex a = a.toNat := by
  unfold wordIndex; omega

/-- What an admitted address is (20_memory.md R32; log 8). -/
theorem admit_iff (a : Word) : isAdmitted a = true ↔ a.toNat % 4 = 0 ∧ a.toNat < 65535 := by
  simp only [isAdmitted, Bool.and_eq_true, decide_eq_true_eq, aligned_iff]
  exact Iff.rfl

/-- An admitted address names a cell wholly inside memory. -/
theorem admit_cell_inRange {a : Word} (h : isAdmitted a = true) : 4 * wordIndex a + 3 < 4 * config.memWords := by
  have := (admit_iff a).mp h
  rw [four_mul_wordIndex this.1, config_memWords]; omega

/-- Everything a load can do. -/
theorem State.load_cases (s : State) (a : Word) :
    (isAdmitted a = true ∧ s.load a = .ok (s.mem.readWord (4 * wordIndex a))) ∨
    (isAdmitted a = false ∧ s.load a = .error .badMemAccess) := by
  cases h : isAdmitted a <;> simp [State.load, h]

/-- Everything a store can do. -/
theorem State.store_cases (s : State) (a v : Word) :
    (isAdmitted a = true ∧ s.store a v = .ok (s.setMem (s.mem.writeWord (4 * wordIndex a) v))) ∨
    (isAdmitted a = false ∧ s.store a v = .error .badMemAccess) := by
  cases h : isAdmitted a <;> simp [State.store, h]

/-- Everything a fetch can do, in the order of its checks (60_exceptions.md R174). -/
theorem State.fetch_cases (s : State) :
    (s.pc.toNat % 4 ≠ 0 ∧ s.fetch = .error .misalignedFetch) ∨
    (s.pc.toNat % 4 = 0 ∧ 65536 ≤ s.pc.toNat ∧ s.fetch = .error .fetchOutOfRange) ∨
    (s.pc.toNat % 4 = 0 ∧ s.pc.toNat < 65536 ∧ s.fetch = .ok (s.mem.readWord s.pc.toNat)) := by
  by_cases h4 : s.pc.toNat % 4 = 0
  · have ha : aligned s.pc = true := (aligned_iff _).mpr h4
    by_cases hr : s.pc.toNat < 65536
    · refine .inr (.inr ⟨h4, hr, ?_⟩)
      have : ¬ 16384 ≤ wordIndex s.pc := by unfold wordIndex; omega
      simp [State.fetch, ha, config_memWords, this, four_mul_wordIndex h4]
    · refine .inr (.inl ⟨h4, by omega, ?_⟩)
      have : 16384 ≤ wordIndex s.pc := by unfold wordIndex; omega
      simp [State.fetch, ha, config_memWords, this]
  · have ha : aligned s.pc = false := by rw [← Bool.not_eq_true, aligned_iff]; exact h4
    exact .inl ⟨h4, by simp [State.fetch, ha]⟩

/-- A fetch never raises a halting condition of a later stage. -/
theorem State.fetch_error {s : State} {k : Fault} (h : s.fetch = .error k) :
    k = .misalignedFetch ∨ k = .fetchOutOfRange := by
  rcases s.fetch_cases with ⟨-, h'⟩ | ⟨-, -, h'⟩ | ⟨-, -, h'⟩ <;> simp_all

/-- What `aluWrite` does: it always completes. -/
theorem aluWrite_eq (op : AluOp) (a b : Word) (d : RegIdx) (s : State) :
    aluWrite op a b d s = .next (s.writeReg d (aluResult op a b)).advance := rfl

@[simp] theorem alu_result (op : AluOp) (a b : Word) : (alu op a b).result = aluResult op a b := rfl
@[simp] theorem alu_zero (op : AluOp) (a b : Word) : (alu op a b).zero = (aluResult op a b == 0#32) := rfl

/-- The Zero flag of a subtraction says that the operands are equal (40_alu.md R73). -/
theorem alu_sub_zero (a b : Word) : (alu .sub a b).zero = decide (a = b) := by
  rw [Bool.eq_iff_iff]
  simp [aluResult, BitVec.sub_eq_iff_eq_add]

/-- A truth value's word. -/
theorem boolWord_toNat (b : Bool) : (boolWord b).toNat = if b then 1 else 0 := by cases b <;> rfl

/-- pc + 4 keeps a multiple of 4 (10_state.md R16). -/
theorem nextPc_mod4 {p : Word} (h : p.toNat % 4 = 0) : (nextPc p).toNat % 4 = 0 := by
  have : (4 : Word).toNat = 4 := rfl
  simp only [nextPc, BitVec.toNat_add, this]; omega

/-- A branch target keeps a multiple of 4 (R16). -/
theorem branchTarget_mod4 {p : Word} (h : p.toNat % 4 = 0) (imm16 : Imm16) : (branchTarget p imm16).toNat % 4 = 0 := by
  simp only [branchTarget, BitVec.toNat_add, BitVec.toNat_shiftLeft, Nat.shiftLeft_eq]; omega

/-- A jump target as a number: the region of `npc` and four times the field. -/
theorem jumpTarget_toNat (npc : Word) (t : Target26) :
    (jumpTarget npc t).toNat = npc.toNat / 2 ^ 28 * 2 ^ 28 + 4 * t.toNat := by
  have ht := t.isLt
  have region : npc &&& 0xF0000000 = (npc >>> 28) <<< 28 := by
    ext i hi; interval_cases i <;> simp
  have high : ((npc >>> 28) <<< 28).toNat = (npc.toNat / 2 ^ 28) <<< 28 := by
    have := npc.isLt
    simp only [BitVec.toNat_shiftLeft, BitVec.toNat_ushiftRight, Nat.shiftRight_eq_div_pow, Nat.shiftLeft_eq]; omega
  have low : (t.setWidth 32 <<< 2).toNat = 4 * t.toNat := by
    simp only [BitVec.toNat_shiftLeft, BitVec.toNat_setWidth, Nat.shiftLeft_eq]; omega
  rw [jumpTarget, region, BitVec.toNat_or, high, low, ← Nat.shiftLeft_add_eq_or_of_lt (by omega), Nat.shiftLeft_eq]

/-- A jump target is a multiple of 4 (R16). -/
theorem jumpTarget_mod4 (npc : Word) (t : Target26) : (jumpTarget npc t).toNat % 4 = 0 := by
  rw [jumpTarget_toNat]; omega

end Sys2Proof.Machine
end

