-- ==== Sys2Proof/Laws/Exec.lean ====
section
/-! SUPPORT. What executing an instruction can do, said once: every invariant and every frame follows from these cases. -/

namespace Sys2Proof.Machine

theorem execLw_cases (r1 r2 : RegIdx) (imm16 : Imm16) (s : State) :
    (isAdmitted (s.effectiveAddr r1 imm16) = true ∧ execLw r1 r2 imm16 s =
      .next (s.writeReg r2 (s.mem.readWord (4 * wordIndex (s.effectiveAddr r1 imm16)))).advance) ∨
    (isAdmitted (s.effectiveAddr r1 imm16) = false ∧ execLw r1 r2 imm16 s = .fault .badMemAccess) := by
  rcases s.load_cases (s.effectiveAddr r1 imm16) with ⟨h, e⟩ | ⟨h, e⟩
  · exact .inl ⟨h, by simp [execLw, e]⟩
  · exact .inr ⟨h, by simp [execLw, e, halt]⟩

theorem execSw_cases (r1 r2 : RegIdx) (imm16 : Imm16) (s : State) :
    (isAdmitted (s.effectiveAddr r1 imm16) = true ∧ execSw r1 r2 imm16 s =
      .next (s.setMem (s.mem.writeWord (4 * wordIndex (s.effectiveAddr r1 imm16)) (s.readReg r2))).advance) ∨
    (isAdmitted (s.effectiveAddr r1 imm16) = false ∧ execSw r1 r2 imm16 s = .fault .badMemAccess) := by
  rcases s.store_cases (s.effectiveAddr r1 imm16) (s.readReg r2) with ⟨h, e⟩ | ⟨h, e⟩
  · exact .inl ⟨h, by simp [execSw, e]⟩
  · exact .inr ⟨h, by simp [execSw, e, halt]⟩

theorem execBeq_eq (r1 r2 : RegIdx) (imm16 : Imm16) (s : State) :
    execBeq r1 r2 imm16 s =
      .next (s.setPc (if s.readReg r1 = s.readReg r2 then branchTarget (nextPc s.pc) imm16 else nextPc s.pc)) := by
  by_cases h : s.readReg r1 = s.readReg r2 <;> simp only [execBeq, alu_sub_zero, h, decide_true, decide_false, if_true, if_false]
  rfl

/-- Everything a completed instruction can do: write its destination, redirect the pc, or store one cell. -/
theorem exec_next_cases {i : Instr} {s t : State} (h : exec i s = .next t) :
    (∃ d v, destination i = some d ∧ storeAddress s i = none ∧ t = (s.writeReg d v).advance) ∨
    (∃ p, destination i = none ∧ storeAddress s i = none ∧ t = s.setPc p ∧ (s.pc.toNat % 4 = 0 → p.toNat % 4 = 0)) ∨
    (∃ r1 r2 imm16, i = .sw r1 r2 imm16 ∧ isAdmitted (s.effectiveAddr r1 imm16) = true ∧
      t = (s.setMem (s.mem.writeWord (4 * wordIndex (s.effectiveAddr r1 imm16)) (s.readReg r2))).advance) := by
  have write {op a b d} (hd : destination i = some d) (hs : storeAddress s i = none)
      (h : aluWrite op a b d s = .next t) :
      ∃ d v, destination i = some d ∧ storeAddress s i = none ∧ t = (s.writeReg d v).advance := by
    rw [aluWrite_eq] at h; cases h; exact ⟨_, _, hd, hs, rfl⟩
  cases i with
  | add r1 r2 r3 => exact .inl (write rfl rfl h)
  | sub r1 r2 r3 => exact .inl (write rfl rfl h)
  | and r1 r2 r3 => exact .inl (write rfl rfl h)
  | or r1 r2 r3 => exact .inl (write rfl rfl h)
  | slt r1 r2 r3 => exact .inl (write rfl rfl h)
  | sltu r1 r2 r3 => exact .inl (write rfl rfl h)
  | addi r1 r2 imm16 => exact .inl (write rfl rfl h)
  | slti r1 r2 imm16 => exact .inl (write rfl rfl h)
  | sltiu r1 r2 imm16 => exact .inl (write rfl rfl h)
  | lui r2 imm16 => exact .inl (write rfl rfl h)
  | j target26 =>
    simp only [exec, execJ] at h; cases h
    exact .inr (.inl ⟨_, rfl, rfl, rfl, fun _ => jumpTarget_mod4 _ _⟩)
  | beq r1 r2 imm16 =>
    simp only [exec, execBeq_eq] at h; cases h
    refine .inr (.inl ⟨_, rfl, rfl, rfl, fun hp => ?_⟩)
    split
    · exact branchTarget_mod4 (nextPc_mod4 hp) imm16
    · exact nextPc_mod4 hp
  | lw r1 r2 imm16 =>
    rcases execLw_cases r1 r2 imm16 s with ⟨-, e⟩ | ⟨-, e⟩ <;> rw [exec, e] at h <;> cases h
    exact .inl ⟨_, _, rfl, rfl, rfl⟩
  | sw r1 r2 imm16 =>
    rcases execSw_cases r1 r2 imm16 s with ⟨ha, e⟩ | ⟨-, e⟩ <;> rw [exec, e] at h <;> cases h
    exact .inr (.inr ⟨_, _, _, rfl, ha, rfl⟩)

/-- Everything a completed step is: a fetched word, decoded, executed. -/
theorem step_next_cases {s t : State} (h : step s = .next t) :
    ∃ w i, s.fetch = .ok w ∧ decodeWord w = .ok i ∧ exec i s = .next t := by
  unfold step at h
  cases hf : s.fetch with
  | error k => simp [hf, halt] at h
  | ok w =>
    cases hd : decodeWord w with
    | error e => simp [hf, hd, halt] at h
    | ok i => exact ⟨w, i, rfl, hd, by simpa [hf, hd] using h⟩

/-- One completed step ends a run no earlier; the rest of the run is the run from the next state. -/
theorem run_succ_next {s t : State} (n : Nat) (h : step s = .next t) :
    run (n + 1) s = { run n t with completed := (run n t).completed + 1 } := by
  simp [run, h]

theorem run_succ_fault {s : State} {k : Fault} (n : Nat) (h : step s = .fault k) :
    run (n + 1) s = ⟨s, 0, some k⟩ := by
  simp [run, h]

end Sys2Proof.Machine
end

