-- ==== Sys2Proof/Laws/PerInstr.lean ====
section
/-! SUPPORT. Statements made per instruction: its word carries its opcode-table row (30_encoding.md R56, R57), and it is well
formed. -/

namespace Sys2Proof.Laws

/-- Two words that agree with `pattern` under `mask`, bit by bit. -/
theorem masked_encodeR (funct : Funct) (r1 r2 r3 : RegIdx) :
    encodeR funct r1 r2 r3 &&& 0xFC00003F = funct.setWidth 32 := by
  simp only [encodeR]
  ext i hi; interval_cases i <;> simp

theorem masked_encodeI (op : Opcode) (r1 r2 : RegIdx) (imm16 : Imm16) :
    encodeI op r1 r2 imm16 &&& 0xFC000000 = op.setWidth 32 <<< 26 := by
  simp only [encodeI]
  ext i hi; interval_cases i <;> simp

theorem masked_encodeLui (op : Opcode) (r2 : RegIdx) (imm16 : Imm16) :
    encodeLui op r2 imm16 &&& 0xFC000000 = op.setWidth 32 <<< 26 := by
  simp only [encodeLui]
  ext i hi; interval_cases i <;> simp

theorem masked_encodeJ (op : Opcode) (t : Target26) :
    encodeJ op t &&& 0xFC000000 = op.setWidth 32 <<< 26 := by
  simp only [encodeJ]
  ext i hi; interval_cases i <;> simp

/-- The instruction's word matches the row of the opcode table that has its mnemonic. -/
def TableRow.Statement (i : Instr) : Prop :=
  ∃ row ∈ opcodeTable, row.mnemonic = i.mnemonic ∧ encode i &&& row.mask = row.pattern

/-- The instruction's operands lie in the ranges of the assembly syntax (R62). -/
def WellFormed.Statement (i : Instr) : Prop := i.wellFormed = true

theorem regOk_toNat (r : RegIdx) : AsmInstr.regOk r.toNat = true := by
  simpa [AsmInstr.regOk] using r.isLt

theorem immOk_toInt (imm16 : Imm16) : AsmInstr.immOk imm16.toInt = true := by
  have h1 := BitVec.le_toInt imm16
  have h2 := BitVec.toInt_lt (x := imm16)
  simp [AsmInstr.immOk]; omega

theorem addrOk_toNat (t : Target26) : AsmInstr.addrOk (4 * t.toNat) = true := by
  have := t.isLt
  simp [AsmInstr.addrOk]; omega

end Sys2Proof.Laws

open Sys2Proof

theorem Sys2Proof.Laws.TableRow.add (r1 r2 r3 : RegIdx) : Laws.TableRow.Statement (.add r1 r2 r3) :=
  ⟨⟨"add", 0x00000020, 0xFC00003F⟩, by decide, rfl, Laws.masked_encodeR _ _ _ _⟩
theorem Sys2Proof.Laws.TableRow.sub (r1 r2 r3 : RegIdx) : Laws.TableRow.Statement (.sub r1 r2 r3) :=
  ⟨⟨"sub", 0x00000022, 0xFC00003F⟩, by decide, rfl, Laws.masked_encodeR _ _ _ _⟩
theorem Sys2Proof.Laws.TableRow.and (r1 r2 r3 : RegIdx) : Laws.TableRow.Statement (.and r1 r2 r3) :=
  ⟨⟨"and", 0x00000024, 0xFC00003F⟩, by decide, rfl, Laws.masked_encodeR _ _ _ _⟩
theorem Sys2Proof.Laws.TableRow.or (r1 r2 r3 : RegIdx) : Laws.TableRow.Statement (.or r1 r2 r3) :=
  ⟨⟨"or", 0x00000025, 0xFC00003F⟩, by decide, rfl, Laws.masked_encodeR _ _ _ _⟩
theorem Sys2Proof.Laws.TableRow.slt (r1 r2 r3 : RegIdx) : Laws.TableRow.Statement (.slt r1 r2 r3) :=
  ⟨⟨"slt", 0x0000002A, 0xFC00003F⟩, by decide, rfl, Laws.masked_encodeR _ _ _ _⟩
theorem Sys2Proof.Laws.TableRow.sltu (r1 r2 r3 : RegIdx) : Laws.TableRow.Statement (.sltu r1 r2 r3) :=
  ⟨⟨"sltu", 0x0000002B, 0xFC00003F⟩, by decide, rfl, Laws.masked_encodeR _ _ _ _⟩
theorem Sys2Proof.Laws.TableRow.j (t : Target26) : Laws.TableRow.Statement (.j t) :=
  ⟨⟨"j", 0x08000000, 0xFC000000⟩, by decide, rfl, Laws.masked_encodeJ _ _⟩
theorem Sys2Proof.Laws.TableRow.beq (r1 r2 : RegIdx) (imm16 : Imm16) : Laws.TableRow.Statement (.beq r1 r2 imm16) :=
  ⟨⟨"beq", 0x10000000, 0xFC000000⟩, by decide, rfl, Laws.masked_encodeI _ _ _ _⟩
theorem Sys2Proof.Laws.TableRow.addi (r1 r2 : RegIdx) (imm16 : Imm16) : Laws.TableRow.Statement (.addi r1 r2 imm16) :=
  ⟨⟨"addi", 0x20000000, 0xFC000000⟩, by decide, rfl, Laws.masked_encodeI _ _ _ _⟩
theorem Sys2Proof.Laws.TableRow.slti (r1 r2 : RegIdx) (imm16 : Imm16) : Laws.TableRow.Statement (.slti r1 r2 imm16) :=
  ⟨⟨"slti", 0x28000000, 0xFC000000⟩, by decide, rfl, Laws.masked_encodeI _ _ _ _⟩
theorem Sys2Proof.Laws.TableRow.sltiu (r1 r2 : RegIdx) (imm16 : Imm16) : Laws.TableRow.Statement (.sltiu r1 r2 imm16) :=
  ⟨⟨"sltiu", 0x2C000000, 0xFC000000⟩, by decide, rfl, Laws.masked_encodeI _ _ _ _⟩
theorem Sys2Proof.Laws.TableRow.lui (r2 : RegIdx) (imm16 : Imm16) : Laws.TableRow.Statement (.lui r2 imm16) :=
  ⟨⟨"lui", 0x3C000000, 0xFC000000⟩, by decide, rfl, Laws.masked_encodeLui _ _ _⟩
theorem Sys2Proof.Laws.TableRow.lw (r1 r2 : RegIdx) (imm16 : Imm16) : Laws.TableRow.Statement (.lw r1 r2 imm16) :=
  ⟨⟨"lw", 0x8C000000, 0xFC000000⟩, by decide, rfl, Laws.masked_encodeI _ _ _ _⟩
theorem Sys2Proof.Laws.TableRow.sw (r1 r2 : RegIdx) (imm16 : Imm16) : Laws.TableRow.Statement (.sw r1 r2 imm16) :=
  ⟨⟨"sw", 0xAC000000, 0xFC000000⟩, by decide, rfl, Laws.masked_encodeI _ _ _ _⟩

theorem Sys2Proof.Laws.WellFormed.add (r1 r2 r3 : RegIdx) : Laws.WellFormed.Statement (.add r1 r2 r3) := by
  simp [Laws.WellFormed.Statement, Instr.wellFormed, Instr.toAsm, AsmInstr.wellFormed, Laws.regOk_toNat]
theorem Sys2Proof.Laws.WellFormed.sub (r1 r2 r3 : RegIdx) : Laws.WellFormed.Statement (.sub r1 r2 r3) := by
  simp [Laws.WellFormed.Statement, Instr.wellFormed, Instr.toAsm, AsmInstr.wellFormed, Laws.regOk_toNat]
theorem Sys2Proof.Laws.WellFormed.and (r1 r2 r3 : RegIdx) : Laws.WellFormed.Statement (.and r1 r2 r3) := by
  simp [Laws.WellFormed.Statement, Instr.wellFormed, Instr.toAsm, AsmInstr.wellFormed, Laws.regOk_toNat]
theorem Sys2Proof.Laws.WellFormed.or (r1 r2 r3 : RegIdx) : Laws.WellFormed.Statement (.or r1 r2 r3) := by
  simp [Laws.WellFormed.Statement, Instr.wellFormed, Instr.toAsm, AsmInstr.wellFormed, Laws.regOk_toNat]
theorem Sys2Proof.Laws.WellFormed.slt (r1 r2 r3 : RegIdx) : Laws.WellFormed.Statement (.slt r1 r2 r3) := by
  simp [Laws.WellFormed.Statement, Instr.wellFormed, Instr.toAsm, AsmInstr.wellFormed, Laws.regOk_toNat]
theorem Sys2Proof.Laws.WellFormed.sltu (r1 r2 r3 : RegIdx) : Laws.WellFormed.Statement (.sltu r1 r2 r3) := by
  simp [Laws.WellFormed.Statement, Instr.wellFormed, Instr.toAsm, AsmInstr.wellFormed, Laws.regOk_toNat]
theorem Sys2Proof.Laws.WellFormed.j (t : Target26) : Laws.WellFormed.Statement (.j t) := by
  simp [Laws.WellFormed.Statement, Instr.wellFormed, Instr.toAsm, AsmInstr.wellFormed, Laws.addrOk_toNat]
theorem Sys2Proof.Laws.WellFormed.beq (r1 r2 : RegIdx) (imm16 : Imm16) : Laws.WellFormed.Statement (.beq r1 r2 imm16) := by
  simp [Laws.WellFormed.Statement, Instr.wellFormed, Instr.toAsm, AsmInstr.wellFormed, Laws.regOk_toNat, Laws.immOk_toInt]
theorem Sys2Proof.Laws.WellFormed.addi (r1 r2 : RegIdx) (imm16 : Imm16) : Laws.WellFormed.Statement (.addi r1 r2 imm16) := by
  simp [Laws.WellFormed.Statement, Instr.wellFormed, Instr.toAsm, AsmInstr.wellFormed, Laws.regOk_toNat, Laws.immOk_toInt]
theorem Sys2Proof.Laws.WellFormed.slti (r1 r2 : RegIdx) (imm16 : Imm16) : Laws.WellFormed.Statement (.slti r1 r2 imm16) := by
  simp [Laws.WellFormed.Statement, Instr.wellFormed, Instr.toAsm, AsmInstr.wellFormed, Laws.regOk_toNat, Laws.immOk_toInt]
theorem Sys2Proof.Laws.WellFormed.sltiu (r1 r2 : RegIdx) (imm16 : Imm16) : Laws.WellFormed.Statement (.sltiu r1 r2 imm16) := by
  simp [Laws.WellFormed.Statement, Instr.wellFormed, Instr.toAsm, AsmInstr.wellFormed, Laws.regOk_toNat, Laws.immOk_toInt]
theorem Sys2Proof.Laws.WellFormed.lui (r2 : RegIdx) (imm16 : Imm16) : Laws.WellFormed.Statement (.lui r2 imm16) := by
  simp [Laws.WellFormed.Statement, Instr.wellFormed, Instr.toAsm, AsmInstr.wellFormed, Laws.regOk_toNat, Laws.immOk_toInt]
theorem Sys2Proof.Laws.WellFormed.lw (r1 r2 : RegIdx) (imm16 : Imm16) : Laws.WellFormed.Statement (.lw r1 r2 imm16) := by
  simp [Laws.WellFormed.Statement, Instr.wellFormed, Instr.toAsm, AsmInstr.wellFormed, Laws.regOk_toNat, Laws.immOk_toInt]
theorem Sys2Proof.Laws.WellFormed.sw (r1 r2 : RegIdx) (imm16 : Imm16) : Laws.WellFormed.Statement (.sw r1 r2 imm16) := by
  simp [Laws.WellFormed.Statement, Instr.wellFormed, Instr.toAsm, AsmInstr.wellFormed, Laws.regOk_toNat, Laws.immOk_toInt]
end

