-- ==== Sys2Proof/Tests/Slice0.lean ====
section
/-! SUPPORT. Tests: the spec's own vectors (95_test_vectors.md; the row is named), one step each, and a witness for every
statement that has hypotheses. -/

namespace Sys2Proof.Tests

open Sys2Proof.Machine

/-! ### Helpers -/

/-- Reset, then the given pc, registers and cells. -/
def mk (pc : Word) (x : List (RegIdx × Word)) (cells : List (Nat × Word)) : State :=
  { x.foldl (fun s p => s.writeReg p.1 p.2) State.reset with
    pc := pc
    mem := cells.foldl (fun m c => Memory.writeWord m c.1 c.2) [] }

/-- The outcome is a next state with the property. -/
def completes (o : Host.Outcome State Fault Refusal) (p : State → Bool) : Bool :=
  match o with
  | .next t => p t
  | .fault _ => false
  | .refused _ => false

/-- The outcome is the halting condition. -/
def halts (o : Host.Outcome State Fault Refusal) (k : Fault) : Bool :=
  match o with
  | .next _ => false
  | .fault k' => k' == k
  | .refused _ => false

theorem completes_elim {o : Host.Outcome State Fault Refusal} {p : State → Bool} (h : completes o p = true) :
    ∃ t, o = .next t ∧ p t = true := by
  cases o with
  | next t => exact ⟨t, rfl, h⟩
  | fault k => cases h
  | refused r => cases h

theorem halts_elim {o : Host.Outcome State Fault Refusal} {k : Fault} (h : halts o k = true) : o = .fault k := by
  cases o with
  | next t => cases h
  | fault k' => exact congrArg _ (of_decide_eq_true h)
  | refused r => cases h

/-! ### Well-formedness: an ill-formed term for each check -/

theorem test_illformed_rtype_d : (AsmInstr.rtype .add 32 1 2).wellFormed = false := by decide
theorem test_illformed_rtype_s : (AsmInstr.rtype .sub 1 32 2).wellFormed = false := by decide
theorem test_illformed_rtype_t : (AsmInstr.rtype .or 1 2 32).wellFormed = false := by decide
theorem test_illformed_itype_t : (AsmInstr.itype .addi 32 1 0).wellFormed = false := by decide
theorem test_illformed_itype_s : (AsmInstr.itype .slti 1 32 0).wellFormed = false := by decide
theorem test_illformed_itype_imm_high : (AsmInstr.itype .addi 1 2 65536).wellFormed = false := by decide
theorem test_illformed_itype_imm_low : (AsmInstr.itype .addi 1 2 (-32769)).wellFormed = false := by decide
theorem test_illformed_lui_t : (AsmInstr.lui 32 0).wellFormed = false := by decide
theorem test_illformed_lui_imm : (AsmInstr.lui 1 65536).wellFormed = false := by decide
theorem test_illformed_mem_t : (AsmInstr.mem .lw 32 0 1).wellFormed = false := by decide
theorem test_illformed_mem_imm : (AsmInstr.mem .sw 1 (-32769) 1).wellFormed = false := by decide
theorem test_illformed_mem_s : (AsmInstr.mem .lw 1 0 32).wellFormed = false := by decide
theorem test_illformed_beq_s : (AsmInstr.beq 32 1 0).wellFormed = false := by decide
theorem test_illformed_beq_t : (AsmInstr.beq 1 32 0).wellFormed = false := by decide
theorem test_illformed_beq_off : (AsmInstr.beq 1 1 65536).wellFormed = false := by decide
theorem test_illformed_j_misaligned : (AsmInstr.j 6).wellFormed = false := by decide
theorem test_illformed_j_too_wide : (AsmInstr.j (2 ^ 32)).wellFormed = false := by decide
theorem test_assemble_add : ((AsmInstr.rtype .add 3 1 2).assemble.map encode) = some 0x00221820 := by decide
theorem test_assemble_lw_negative : ((AsmInstr.mem .lw 3 (-4) 1).assemble.map encode) = some 0x8C23FFFC := by decide
theorem test_assemble_j : ((AsmInstr.j 0x0FFFFFFC).assemble.map encode) = some 0x0BFFFFFF := by decide

/-! ### Decoding: words written out bit by bit from 30_encoding.md R52, R56, R57 -/

theorem test_decode_add : decodeWord 0b000000_00001_00010_00011_00000_100000 = .ok (.add 1 2 3) := by rfl
theorem test_decode_sub : decodeWord 0b000000_00001_00010_00100_11111_100010 = .ok (.sub 1 2 4) := by rfl
theorem test_decode_and : decodeWord 0b000000_00001_00010_00011_00000_100100 = .ok (.and 1 2 3) := by rfl
theorem test_decode_or : decodeWord 0b000000_00001_00010_00100_00000_100101 = .ok (.or 1 2 4) := by rfl
theorem test_decode_slt : decodeWord 0b000000_00010_00001_00101_00000_101010 = .ok (.slt 2 1 5) := by rfl
theorem test_decode_sltu : decodeWord 0b000000_00010_00001_00110_00000_101011 = .ok (.sltu 2 1 6) := by rfl
theorem test_decode_j : decodeWord 0b000010_11111111111111111111111110 = .ok (.j 0x3FFFFFE) := by rfl
theorem test_decode_beq : decodeWord 0b000100_00001_00010_1000000000000011 = .ok (.beq 1 2 0x8003) := by rfl
theorem test_decode_addi : decodeWord 0b001000_00001_11111_1111111111111110 = .ok (.addi 1 31 0xFFFE) := by rfl
theorem test_decode_slti : decodeWord 0b001010_00010_01000_1000000000000000 = .ok (.slti 2 8 0x8000) := by rfl
theorem test_decode_sltiu : decodeWord 0b001011_00001_01001_0000000000000001 = .ok (.sltiu 1 9 1) := by rfl
theorem test_decode_lui : decodeWord 0b001111_11111_00111_1000000000000000 = .ok (.lui 7 0x8000) := by rfl
theorem test_decode_lw : decodeWord 0b100011_00001_00011_1111111111111100 = .ok (.lw 1 3 0xFFFC) := by rfl
theorem test_decode_sw : decodeWord 0b101011_00001_00010_0000000000000100 = .ok (.sw 1 2 4) := by rfl
/-- R57's example: addi whose low six bits look like sltu's funct. -/
theorem test_decode_addi_not_sltu : decodeWord 0x2021002B = .ok (.addi 1 1 43) := by rfl
theorem test_decode_bytes : decode [0x20, 0x18, 0x22, 0x00, 0x07] = .ok (.add 1 2 3, [0x07]) := by rfl
theorem test_decode_truncated : decode [0x20, 0x18, 0x22] = .error .truncated := by rfl
theorem test_decodeTableWord : decodeTableWord 32 0xFC000000 = none ∧ decodeTableWord 32 0x00000020 = some (.add 0 0 0) := by decide

/-! ### The ALU's own interface -/

/-- V-ALU-40 -/
theorem test_alu_not : aluBySelector 7 0x12345678 0 = ⟨0xEDCBA987, false⟩ := by decide
/-- V-ALU-41 -/
theorem test_alu_undefined : aluBySelector 15 5 7 = ⟨0, true⟩ := by decide
/-- V-ALU-27, V-ALU-28 under each reading -/
theorem test_andReduced_band : andReduced .bitwiseThenNonzero 6 9 = 0 ∧ andReduced .logical 1 2 = 1 := by decide

/-! ### One step of each instruction -/

/-- V-RT-2: the source's example, ignored bits set. -/
theorem test_add : completes (step (mk 0x100 [(1, 5), (2, 7)] [(0x100, 0x002218E0)]))
    (fun t => t.readReg 3 == 12 && t.readReg 1 == 5 && t.pc == 0x104) = true := by decide
/-- V-RT-4 -/
theorem test_add_writes_register_zero : completes (step (mk 0x100 [(1, 5), (2, 7), (0, 9)] [(0x100, 0x00220020)]))
    (fun t => t.readReg 0 == 12) = true := by decide
/-- V-RT-6 -/
theorem test_sub : completes (step (mk 0x100 [(1, 5), (2, 0xFFFFFFFD)] [(0x100, 0x00222022)]))
    (fun t => t.readReg 4 == 8) = true := by decide
/-- V-RT-8 -/
theorem test_and : completes (step (mk 0x100 [(1, 0xF0), (2, 0x3C)] [(0x100, 0x00221824)]))
    (fun t => t.readReg 3 == 1) = true := by decide
/-- V-RT-10 -/
theorem test_or : completes (step (mk 0x100 [(1, 6), (2, 9)] [(0x100, 0x00222025)]))
    (fun t => t.readReg 4 == 1) = true := by decide
/-- V-RT-12 -/
theorem test_slt : completes (step (mk 0x100 [(1, 5), (2, 0xFFFFFFFD)] [(0x100, 0x0041282A)]))
    (fun t => t.readReg 5 == 1) = true := by decide
/-- V-RT-13 -/
theorem test_sltu : completes (step (mk 0x100 [(1, 5), (2, 0xFFFFFFFD), (6, 0x77)] [(0x100, 0x0041302B)]))
    (fun t => t.readReg 6 == 0) = true := by decide
/-- V-IM-3 -/
theorem test_addi : completes (step (mk 0x100 [] [(0x100, 0x2021FFFF)]))
    (fun t => t.readReg 1 == 0xFFFFFFFF && t.pc == 0x104) = true := by decide
/-- V-IM-7 -/
theorem test_slti : completes (step (mk 0x100 [(2, 0x80000000)] [(0x100, 0x28488000)]))
    (fun t => t.readReg 8 == 1) = true := by decide
/-- V-IM-11 -/
theorem test_sltiu : completes (step (mk 0x100 [(1, 0x8000)] [(0x100, 0x2C298000)]))
    (fun t => t.readReg 9 == 1) = true := by decide
/-- V-IM-13 -/
theorem test_lui : completes (step (mk 0x100 [(31, 0x12345678)] [(0x100, 0x3FE78000)]))
    (fun t => t.readReg 7 == 0x80000000) = true := by decide
/-- V-LS-4: the highest admitted address. -/
theorem test_lw_top : completes (step (mk 0x40 [(1, 0xFFFC)] [(0x40, 0x8C230000), (0xFFFC, 0xCAFEF00D)]))
    (fun t => t.readReg 3 == 0xCAFEF00D && t.pc == 0x44) = true := by decide
/-- V-LS-9: the address sum wraps. -/
theorem test_lw_wraps : completes (step (mk 0x40 [(1, 0xFFFFFFFC)] [(0x40, 0x8C230008), (4, 0xABCD)]))
    (fun t => t.readReg 3 == 0xABCD) = true := by decide
/-- V-LS-12: a store over its own instruction. -/
theorem test_sw_over_itself : completes (step (mk 0x40 [(1, 0x40), (2, 0x11111111)] [(0x40, 0xAC220000)]))
    (fun t => t.mem.readWord 0x40 == 0x11111111 && t.pc == 0x44) = true := by decide
/-- V-LS-11 -/
theorem test_sw_bound : halts (step (mk 0x40 [(1, 0xFFFC), (2, 0x7FFF)] [(0x40, 0xAC220004)])) .badMemAccess = true := by decide
/-- V-CT-1 -/
theorem test_beq_taken : completes (step (mk 8 [(1, 9), (2, 9)] [(8, 0x10220003)])) (fun t => t.pc == 0x18) = true := by decide
/-- V-CT-6: backward, wrapping. -/
theorem test_beq_backward : completes (step (mk 8 [] [(8, 0x10218000)])) (fun t => t.pc == 0xFFFE000C) = true := by decide
/-- V-CT-9 -/
theorem test_j : completes (step (mk 0x14 [] [(0x14, 0x0BFFFFFF)])) (fun t => t.pc == 0x0FFFFFFC) = true := by decide
/-- R118: the top four bits are those of pc + 4. -/
theorem test_j_region : completes (exec (.j 2) (mk 0x0FFFFFFC [] [])) (fun t => t.pc == 0x10000008) = true := by decide

/-! ### Halts: V-HL-2, V-HL-3, V-HL-5, V-HL-8, V-LS-8 -/

theorem test_halt_misaligned_first : halts (step (mk 0x10002 [] [])) .misalignedFetch = true := by decide
theorem test_halt_out_of_range : halts (step (mk 0x10000 [] [])) .fetchOutOfRange = true := by decide
theorem test_halt_opcode : halts (step (mk 0x100 [] [(0x100, 0x0C000040)])) .illegalOpcode = true := by decide
theorem test_halt_funct : halts (step (mk 0x100 [] [(0x100, 0x00221821)])) .illegalFunct = true := by decide
theorem test_halt_unsigned_bound : halts (step (mk 0x40 [(3, 0x77)] [(0x40, 0x8C03FFFC)])) .badMemAccess = true := by decide

/-! ### The stage view, the boundary and the run -/

theorem test_datapath_sw : completes (datapathStep (mk 0x40 [(1, 0x100), (2, 0x7FFF)] [(0x40, 0xAC220000)]))
    (fun t => t.mem.readWord 0x100 == 0x7FFF) = true := by decide
theorem test_boundary_sw : (boundary (mk 0x40 [(1, 0x100), (2, 0x7FFF)] [(0x40, 0xAC220000)])).dataWrite = some (0x40, 0x7FFF) := by
  decide
theorem test_run_ends : (run 3 (mk 0 [] [(0, 0x20010005)])).completed = 1 ∧
    (run 3 (mk 0 [] [(0, 0x20010005)])).halted = some .illegalFunct := by decide
theorem test_memory_zero_unlisted : (Memory.writeByte [(3, 7)] 3 0) = [] := by decide

/-! ### Witnesses: a state and operands that meet the hypotheses of each statement that has any -/

/-- An add, a store and a load at fixed places, for the witnesses below. -/
def addState : State := mk 0x100 [(1, 5), (2, 7)] [(0x100, 0x00221820)]
def swState : State := mk 0x40 [(1, 0xFFFC), (2, 0x7FFF)] [(0x40, 0xAC220000)]
def lwState : State := mk 0x40 [(1, 0xFFFC)] [(0x40, 0x8C230000), (0xFFFC, 0xCAFEF00D)]

/-- One word for each clause, at the ends of the opcode and funct ranges where a clause is a range. -/
theorem witness_DecoderReadsEveryRow_rtype :
    ∀ p ∈ [((0x03FFFFE0 : Word), 0x20), (0x22, 0x22), (0x24, 0x24), (0x25, 0x25), (0x2A, 0x2A), (0x03FFFFEB, 0x2B)],
      p.1.toNat / 2 ^ 26 = 0 ∧ p.1.toNat % 2 ^ 6 = p.2 := by simp
theorem witness_DecoderReadsEveryRow_undefinedFunct :
    ∀ w ∈ [(0x00000000 : Word), 0x0000001F, 0x00000021, 0x0000002C, 0x03FFFFFF],
      w.toNat / 2 ^ 26 = 0 ∧ w.toNat % 2 ^ 6 ∉ [0x20, 0x22, 0x24, 0x25, 0x2A, 0x2B] := by simp
theorem witness_DecoderReadsEveryRow_others :
    ∀ p ∈ [((0x0BFFFFFF : Word), 0x02), (0x10000000, 0x04), (0x23FFFFFF, 0x08), (0x28000000, 0x0A), (0x2FFFFFFF, 0x0B),
        (0x3C000000, 0x0F), (0x8FFFFFFF, 0x23), (0xAC000000, 0x2B)], p.1.toNat / 2 ^ 26 = p.2 := by simp
theorem witness_DecoderReadsEveryRow_undefinedOpcode :
    ∀ w ∈ [(0x04000000 : Word), 0xB0000000, 0xFFFFFFFF],
      w.toNat / 2 ^ 26 ∉ [0x00, 0x02, 0x04, 0x08, 0x0A, 0x0B, 0x0F, 0x23, 0x2B] := by simp
theorem witness_EncodeOfDecodeClearsIgnoredBits :
    decodeWord 0x002218E0 = .ok (.add 1 2 3) ∧ decodeWord 0x3FE78000 = .ok (.lui 7 0x8000) := ⟨rfl, rfl⟩
theorem witness_IgnoredBitsDoNotMatter : decodeWord 0x3FE78000 = .ok (.lui 7 0x8000) ∧
    (0x3FE78000 : Word) &&& usedBits (.lui 7 0x8000) = 0x3C078000 &&& usedBits (.lui 7 0x8000) := ⟨rfl, rfl⟩
theorem witness_TableRowsSelectTheirInstruction : (⟨"add", 0x00000020, 0xFC00003F⟩ : OpcodeRow) ∈ opcodeTable ∧
    (0x00221820 : Word) &&& 0xFC00003F = 0x00000020 := by decide
theorem witness_SpellingAssemblesBack : (-32768 : Int) ≤ -32768 ∧ (-32768 : Int) < 0 ∧ (-32768 : Int) ≤ -1 ∧ (-1 : Int) < 0 := by
  decide
theorem witness_IllegalOpcodeHalts : (mk 0x100 [] [(0x100, 0xFC000000)]).fetch = .ok 0xFC000000 ∧
    (0xFC000000 : Word).toNat / 2 ^ 26 ∉ [0x00, 0x02, 0x04, 0x08, 0x0A, 0x0B, 0x0F, 0x23, 0x2B] := ⟨rfl, by decide⟩
theorem witness_IllegalFunctHalts : (mk 0x100 [] [(0x100, 0x00221821)]).fetch = .ok 0x00221821 ∧
    (0x00221821 : Word).toNat / 2 ^ 26 = 0 ∧ (0x00221821 : Word).toNat % 2 ^ 6 ∉ [0x20, 0x22, 0x24, 0x25, 0x2A, 0x2B] ∧
    State.reset.fetch = .ok 0x00000000 := ⟨rfl, by decide, by decide, rfl⟩
theorem witness_AluAndIsReduced : (0xF0 : Word) &&& 0x3C ≠ 0 ∧ ((0 : Word) = 0 ∨ (0xFFFFFFFF : Word) = 0) ∧
    ((6 : Word) ≠ 0 ∧ (9 : Word) ≠ 0 ∧ (6 : Word) &&& 9 = 0) := by decide
theorem witness_AluShiftAndNot : decodeControl 0x00 = .ok rowRType := rfl
theorem witness_UndefinedSelectorYieldsZero : 8 ≤ (8 : BitVec 4).toNat ∧ 8 ≤ (15 : BitVec 4).toNat := by decide
theorem witness_AluLaws : AluOp.sltu ∈ [AluOp.add, .sub, .slt, .sltu, .and, .or] ∧ aluSelect 8 = none ∧ aluSelect 15 = none := by
  decide
theorem witness_SignExtension : ∃ e, executeStages State.reset 0x2021FFFF = .ok e ∧ e.control.aluSrc = .immediate :=
  ⟨_, rfl, rfl⟩
theorem witness_ControlTableProperties : (∃ c, decodeControl 0x23 = .ok c ∧ c.regWrite = true ∧ c.memtoReg = .memory) ∧
    (∃ c, decodeControl 0x00 = .ok c ∧ c.aluOp = .rtype) := ⟨⟨_, rfl, rfl, rfl⟩, ⟨_, rfl, rfl⟩⟩
theorem witness_RegisterReadGivesStoredValues : ∃ e, executeStages addState 0x00221820 = .ok e := ⟨_, rfl⟩
theorem witness_OperationResolution : (0x00 : Funct).toNat ∉ [0x20, 0x22, 0x24, 0x25, 0x2A, 0x2B] ∧
    (0x3F : Funct).toNat ∉ [0x20, 0x22, 0x24, 0x25, 0x2A, 0x2B] := by decide
/-- The highest admitted address, an empty (so canonical) memory, and a byte on each side of the cell. -/
theorem witness_MemoryAccessReadsWritesOrIdles : (0xFFFC : Word).toNat % 4 = 0 ∧ (0xFFFC : Word).toNat < 0xFFFF ∧
    Memory.wf [] ∧ 0xFFFB < (0xFFFC : Word).toNat ∧ (0xFFFC : Word).toNat + 4 ≤ 0x10000 := by decide
theorem witness_MemoryAccessGate : ¬ ((0x10000 : Word).toNat % 4 = 0 ∧ (0x10000 : Word).toNat < 0xFFFF) ∧
    ¬ ((0xFFFE : Word).toNat % 4 = 0 ∧ (0xFFFE : Word).toNat < 0xFFFF) := by decide
theorem witness_WriteBackStores : (1 : RegIdx) ≠ (if RegDst.dontCare = .rd then 3 else 2) := by decide
theorem witness_PcUpdateOrder : decodeControl 0x02 = .ok rowJ := rfl
theorem witness_AddWritesWrappedSum : (0x002218E0 : Word) &&& 0xFC00003F = 0x00000020 := by decide
theorem witness_SubWritesWrappedDifference : (0x00222022 : Word) &&& 0xFC00003F = 0x00000022 := by decide
theorem witness_AndWritesReducedAnd :
    (mk 0 [(1, 0xF0), (2, 0x3C)] []).readReg 1 &&& (mk 0 [(1, 0xF0), (2, 0x3C)] []).readReg 2 ≠ 0 ∧
    ((mk 0 [(2, 0x3C)] []).readReg 1 = 0 ∨ (mk 0 [(2, 0x3C)] []).readReg 2 = 0) := by decide
theorem witness_OrWritesReducedOr : (0x00222025 : Word) &&& 0xFC00003F = 0x00000025 := by decide
theorem witness_SltWritesSignedComparison : (0x0041282A : Word) &&& 0xFC00003F = 0x0000002A := by decide
theorem witness_SltuWritesUnsignedComparison : (0x0041302B : Word) &&& 0xFC00003F = 0x0000002B := by decide
theorem witness_LoadAndStoreComplete : (swState.effectiveAddr 1 0).toNat % 4 = 0 ∧
    (swState.effectiveAddr 1 0).toNat < 0xFFFF ∧ swState.mem.wf ∧ 0 < (swState.effectiveAddr 1 0).toNat := by decide
theorem witness_LoadAndStoreHaltElsewhere : (swState.effectiveAddr 1 2).toNat % 4 ≠ 0 ∧
    0xFFFF ≤ (swState.effectiveAddr 1 4).toNat ∧ (swState.effectiveAddr 1 4).toNat % 4 = 0 := by decide
theorem witness_InvariantAtLaunch : Memory.wf [(0xFFFF, 1)] ∧ Memory.inRange [(0xFFFF, 1)] ∧ (0xFFFC : Word).toNat % 4 = 0 := by
  decide
theorem witness_InvariantKeptByEveryStep : swState.Inv ∧ ∃ t, step swState = .next t :=
  ⟨⟨by decide, by decide, by decide⟩, (completes_elim (p := fun _ => true) (by decide)).imp fun _ h => h.1⟩
theorem witness_AlignedRunsNeverMisfetch : swState.pc.toNat % 4 = 0 ∧ ∃ t, Reaches swState t ∧ t.pc ≠ swState.pc := by
  obtain ⟨t, h, hp⟩ := completes_elim (o := step swState) (p := fun t => t.pc == 0x44) (by decide)
  refine ⟨by decide, t, .tail (.refl _) h, ?_⟩
  rw [beq_iff_eq.mp hp]; decide
theorem witness_OnlyTheDestinationRegisterChanges : (∃ t, exec (.add 1 2 3) addState = .next t) ∧
    destination (.add 1 2 3) ≠ some 1 := ⟨⟨_, rfl⟩, by decide⟩
theorem witness_OnlyStoreWritesMemory : swState.mem.wf ∧ (∃ t, exec (.sw 1 2 0) swState = .next t) ∧
    storeAddress swState (.sw 1 2 0) = some 0xFFFC ∧
    (∃ t, exec (.add 1 2 3) swState = .next t) ∧ storeAddress swState (.add 1 2 3) = none :=
  ⟨by decide, (completes_elim (p := fun _ => true) (by decide)).imp fun _ h => h.1, by decide, ⟨_, rfl⟩, rfl⟩
theorem witness_OnlyLoadReadsMemory : (0xFFFC : Word).toNat % 4 = 0 ∧ (0xFFFC : Word).toNat < 0xFFFF ∧
    (∃ t, exec (.lw 1 3 0) lwState = .next t) ∧ (Instr.sw 1 2 0).mnemonic ≠ "lw" ∧ ∃ t, exec (.sw 1 2 0) swState = .next t :=
  ⟨by decide, by decide, (completes_elim (p := fun _ => true) (by decide)).imp fun _ h => h.1, by decide,
    (completes_elim (p := fun _ => true) (by decide)).imp fun _ h => h.1⟩
/-- A state for each of the five halts; the spec's priority case is the first. -/
theorem witness_HaltsInStageOrder : step (mk 0x10002 [] []) = .fault .misalignedFetch ∧
    step (mk 0x10000 [] []) = .fault .fetchOutOfRange ∧
    step (mk 0xFFFC [] [(0xFFFC, 0xFC000000)]) = .fault .illegalOpcode ∧
    step (mk 0xFFFC [] []) = .fault .illegalFunct ∧
    step (mk 0x40 [(1, 0x10000)] [(0x40, 0x8C230000)]) = .fault .badMemAccess :=
  ⟨halts_elim (by decide), halts_elim (by decide), halts_elim (by decide), halts_elim (by decide), halts_elim (by decide)⟩
theorem witness_StepRunsTheDecodedInstruction : addState.pc.toNat % 4 = 0 ∧ addState.pc.toNat < 0x10000 ∧
    decode [addState.mem.readByte addState.pc.toNat, addState.mem.readByte (addState.pc.toNat + 1),
      addState.mem.readByte (addState.pc.toNat + 2), addState.mem.readByte (addState.pc.toNat + 3)] = .ok (.add 1 2 3, []) :=
  ⟨by decide, by decide, rfl⟩
/-- From reset, and from a pc that cannot be fetched from. -/
theorem witness_PlacedWordRunsNext : State.reset.mem.wf ∧ decodeTableWord 32 0x00221820 = some (.add 1 2 3) ∧
    State.reset.pc.toNat % 4 = 0 ∧ State.reset.pc.toNat < 0x10000 ∧
    completes (step ((mk 0x10006 [(1, 5), (2, 7)] []).withFetchWord 32 0x00221820)) (fun t => t.readReg 3 == 12) = true := by
  decide
theorem witness_LoadAfterStore : swState.mem.wf ∧ ∃ t, exec (.sw 1 2 0) swState = .next t :=
  ⟨by decide, (completes_elim (p := fun _ => true) (by decide)).imp fun _ h => h.1⟩
/-- The state after the store with its pc at the stored cell, and with it elsewhere. -/
theorem witness_StoreIsSeenByFetch : swState.mem.wf ∧ ∃ t, exec (.sw 1 2 0) swState = .next t ∧
    (t.setPc 0xFFFC).mem = t.mem ∧ (t.setPc 0xFFFC).pc = swState.effectiveAddr 1 0 ∧ (t.setPc 0).pc ≠ swState.effectiveAddr 1 0 := by
  obtain ⟨t, h, -⟩ := completes_elim (o := exec (.sw 1 2 0) swState) (p := fun _ => true) (by decide)
  exact ⟨by decide, t, h, rfl, (show (0xFFFC : Word) = swState.effectiveAddr 1 0 from by decide),
    (show (0 : Word) ≠ swState.effectiveAddr 1 0 from by decide)⟩
theorem witness_RunEndsAtTheFirstHalt : (run 2 addState).halted = some .illegalFunct ∧ (run 1 addState).halted = none := by decide
theorem witness_BoundaryShowsTheStep : (∃ t, step addState = .next t) ∧ step (mk 0x10000 [] []) = .fault .fetchOutOfRange :=
  ⟨(completes_elim (p := fun _ => true) (by decide)).imp fun _ h => h.1, halts_elim (by decide)⟩

end Sys2Proof.Tests
end

-- Proofs of the family 20_memory.md.
section
/-! PROOFS. What an execution does to memory, and what memory does to an execution (20_memory.md R33, R34). -/

namespace Sys2Proof.Machine

/-- An admitted load is the cell that begins at its address (20_memory.md R33). -/
theorem State.load_of_admitted (s : State) {a : Word} (h : isAdmitted a = true) :
    s.load a = .ok (s.mem.readWord a.toNat) := by
  rcases s.load_cases a with ⟨-, e⟩ | ⟨hn, -⟩
  · rw [e, four_mul_wordIndex ((admit_iff a).mp h).1]
  · simp [h] at hn

/-! ### What an execution does to memory -/

/-- The memory is the same data, not only the same bytes, so no canonical form is needed. -/
theorem exec_mem_of_storeAddress_none {i : Instr} {s t : State} (h : exec i s = .next t)
    (hs : storeAddress s i = none) : t.mem = s.mem := by
  rcases exec_next_cases h with ⟨d, v, -, -, rfl⟩ | ⟨p, -, -, rfl, -⟩ | ⟨r1, r2, imm16, rfl, -, -⟩
  · rfl
  · rfl
  · simp [storeAddress] at hs

/-- The one store (R34): completion has checked the alignment, so the cell begins at the effective address itself. -/
theorem exec_mem_of_storeAddress_some {i : Instr} {s t : State} {p : Nat} (h : exec i s = .next t)
    (hp : storeAddress s i = some p) :
    ∃ r1 r2 imm16, i = .sw r1 r2 imm16 ∧ p = (s.effectiveAddr r1 imm16).toNat ∧
      t.mem = s.mem.writeWord p (s.readReg r2) := by
  rcases exec_next_cases h with ⟨d, v, -, hs, -⟩ | ⟨q, -, hs, -, -⟩ | ⟨r1, r2, imm16, rfl, ha, rfl⟩
  · simp [hs] at hp
  · simp [hs] at hp
  · cases hp
    exact ⟨r1, r2, imm16, rfl, four_mul_wordIndex ((admit_iff _).mp ha).1, rfl⟩

/-! ### What memory does to an execution -/

/-- The operands are already read, so the write of an ALU result never looks at memory. -/
theorem aluWrite_setMem {op : AluOp} {a b : Word} {d : RegIdx} {s t : State} (h : aluWrite op a b d s = .next t)
    (m : Memory) : aluWrite op a b d (s.setMem m) = .next (t.setMem m) := by
  rw [aluWrite_eq] at h; cases h; rfl

/-- The admission of a store looks at registers only, so sw completes in any memory. -/
theorem execSw_setMem {r1 r2 : RegIdx} {imm16 : Imm16} {s t : State} (h : execSw r1 r2 imm16 s = .next t) (m : Memory) :
    ∃ n, execSw r1 r2 imm16 (s.setMem m) = .next (t.setMem n) := by
  rcases execSw_cases r1 r2 imm16 s with ⟨ha, e⟩ | ⟨-, e⟩ <;> rw [e] at h <;> cases h
  rcases execSw_cases r1 r2 imm16 (s.setMem m) with ⟨-, e⟩ | ⟨hn, -⟩
  · exact ⟨_, e⟩
  · exact nomatch ha.symm.trans hn

/-- Noninterference (R33): but for lw, another memory can change nothing of the outcome but its memory. -/
theorem exec_setMem {i : Instr} {s t : State} (hi : i.mnemonic ≠ "lw") (h : exec i s = .next t) (m : Memory) :
    ∃ n, exec i (s.setMem m) = .next (t.setMem n) := by
  cases i with
  | add | sub | and | or | slt | sltu | addi | slti | sltiu | lui => exact ⟨m, aluWrite_setMem h m⟩
  | j target26 => cases h; exact ⟨m, rfl⟩
  | beq r1 r2 imm16 =>
    rw [exec, execBeq_eq] at h; cases h
    exact ⟨m, execBeq_eq r1 r2 imm16 (s.setMem m)⟩
  | lw r1 r2 imm16 => exact absurd rfl hi
  | sw r1 r2 imm16 => exact execSw_setMem h m

/-! ### The obligations -/

/-- Settles O49: an execution either keeps the memory or is a sw's write of one cell. -/
theorem onlyStoreWritesMemory : Obligations.OnlyStoreWritesMemory := by
  intro i s t hm h
  refine ⟨fun hs a => by rw [exec_mem_of_storeAddress_none h hs], fun p hp => ?_⟩
  obtain ⟨r1, r2, imm16, hi, hpa, hmem⟩ := exec_mem_of_storeAddress_some h hp
  rw [hmem]
  exact ⟨⟨r1, r2, imm16, hi, hpa, Memory.readWord_writeWord_self hm p _⟩,
    fun a ha => Memory.readByte_writeWord_of_ne s.mem _ ha⟩

/-- Settles O50: lw has no store address, and every other instruction commutes with replacing the memory. -/
theorem onlyLoadReadsMemory : Obligations.OnlyLoadReadsMemory := by
  refine ⟨fun s addr h4 hlt => s.load_of_admitted ((admit_iff addr).mpr ⟨h4, hlt⟩),
    fun s t r1 r2 imm16 h => exec_mem_of_storeAddress_none h rfl, fun i s t m hi h => ?_⟩
  obtain ⟨n, hn⟩ := exec_setMem hi h m
  exact ⟨t.setMem n, hn, rfl, rfl⟩

end Sys2Proof.Machine
end

-- Proofs of the family 30_encoding.md.
section
/-! PROOFS. How a word is cut into fields, what it decodes to, and how an illegal word halts (30_encoding.md R51, R56 to
R59). -/

namespace Sys2Proof

/-- R51 as arithmetic: each field is a quotient of the word, taken modulo the field's width. -/
theorem partition_eq (w : Word) : partition w =
    { opcode := BitVec.ofNat 6 (w.toNat / 2 ^ 26)
      r1 := BitVec.ofNat 5 (w.toNat / 2 ^ 21)
      r2 := BitVec.ofNat 5 (w.toNat / 2 ^ 16)
      r3 := BitVec.ofNat 5 (w.toNat / 2 ^ 11)
      funct := BitVec.ofNat 6 w.toNat
      imm16 := BitVec.ofNat 16 w.toNat
      target26 := BitVec.ofNat 26 w.toNat } := by
  simp only [partition, BitVec.extractLsb', Nat.shiftRight_eq_div_pow, Nat.pow_zero, Nat.div_one]

theorem partition_opcode_toNat (w : Word) : (partition w).opcode.toNat = w.toNat / 2 ^ 26 := by
  have := w.isLt
  rw [partition_eq, BitVec.toNat_ofNat]; omega

theorem partition_funct_toNat (w : Word) : (partition w).funct.toNat = w.toNat % 2 ^ 6 := by
  rw [partition_eq, BitVec.toNat_ofNat]

theorem partition_opcode_eq {w : Word} {op : Opcode} (h : w.toNat / 2 ^ 26 = op.toNat) : (partition w).opcode = op :=
  BitVec.eq_of_toNat_eq ((partition_opcode_toNat w).trans h)

theorem partition_funct_eq {w : Word} {fn : Funct} (h : w.toNat % 2 ^ 6 = fn.toNat) : (partition w).funct = fn :=
  BitVec.eq_of_toNat_eq ((partition_funct_toNat w).trans h)

/-! ### Outside the table -/

/-- The nine opcodes of R56. -/
def acceptedOpcodes : List Opcode := [0x00, 0x02, 0x04, 0x08, 0x0A, 0x0B, 0x0F, 0x23, 0x2B]

/-- The six functs of R57. -/
def acceptedFuncts : List Funct := [0x20, 0x22, 0x24, 0x25, 0x2A, 0x2B]

theorem partition_opcode_notMem {w : Word}
    (h : w.toNat / 2 ^ 26 ∉ [0x00, 0x02, 0x04, 0x08, 0x0A, 0x0B, 0x0F, 0x23, 0x2B]) :
    (partition w).opcode ∉ acceptedOpcodes := fun hm =>
  h (partition_opcode_toNat w ▸ List.mem_map_of_mem (f := BitVec.toNat) hm)

theorem partition_funct_notMem {w : Word} (h : w.toNat % 2 ^ 6 ∉ [0x20, 0x22, 0x24, 0x25, 0x2A, 0x2B]) :
    (partition w).funct ∉ acceptedFuncts := fun hm =>
  h (partition_funct_toNat w ▸ List.mem_map_of_mem (f := BitVec.toNat) hm)

theorem decodeFields_of_notMem {f : Fields} (h : f.opcode ∉ acceptedOpcodes) : decodeFields f = .error .opcode := by
  simp only [acceptedOpcodes, List.mem_cons, not_or] at h
  simp only [decodeFields, h, if_false]

theorem decodeFunct_of_notMem {f : Fields} (h : f.funct ∉ acceptedFuncts) : decodeFunct f = .error .funct := by
  simp only [acceptedFuncts, List.mem_cons, not_or] at h
  simp only [decodeFunct, h, if_false]

/-! ### Each row of the table -/

/-- Under opcode 0x00 the funct alone decides (R57). -/
theorem decodeWord_of_opcode_zero {w : Word} (h : w.toNat / 2 ^ 26 = 0) : decodeWord w = decodeFunct (partition w) :=
  if_pos (partition_opcode_eq h)

theorem decodeWord_rtype {w : Word} {fn : Funct} (ho : w.toNat / 2 ^ 26 = 0) (hf : w.toNat % 2 ^ 6 = fn.toNat) :
    decodeWord w = decodeFunct { partition w with funct := fn } := by
  rw [decodeWord_of_opcode_zero ho, ← partition_funct_eq hf]

theorem decodeWord_opcode {w : Word} {op : Opcode} (ho : w.toNat / 2 ^ 26 = op.toNat) :
    decodeWord w = decodeFields { partition w with opcode := op } := by
  rw [decodeWord, ← partition_opcode_eq ho]

end Sys2Proof

namespace Sys2Proof.Machine

theorem step_of_illegal {s : State} {w : Word} {e : Illegal} (hf : s.fetch = .ok w) (hd : decodeWord w = .error e) :
    step s = .fault (illegalFault e) := by
  simp only [step, hf, hd, halt]

theorem decodeControl_of_notMem {op : Opcode} (h : op ∉ acceptedOpcodes) : decodeControl op = .error .illegalOpcode := by
  simp only [acceptedOpcodes, List.mem_cons, not_or] at h
  simp only [decodeControl, h, if_false]

theorem functOp_of_notMem {fn : Funct} (h : fn ∉ acceptedFuncts) : functOp fn = .error .illegalFunct := by
  simp only [acceptedFuncts, List.mem_cons, not_or] at h
  simp only [functOp, h, if_false]

theorem executeStages_of_control_error {w : Word} {k : Fault} (s : State)
    (hc : decodeControl (partition w).opcode = .error k) : executeStages s w = .error k := by
  simp only [executeStages, hc]

theorem executeStages_of_resolve_error {w : Word} {c : ControlVector} {k : Fault} (s : State)
    (hc : decodeControl (partition w).opcode = .ok c) (hr : resolveOp c.aluOp (partition w).funct = .error k) :
    executeStages s w = .error k := by
  simp only [executeStages, hc, hr]

/-! ### The obligations -/

/-- Settles O3: the opcode, and under opcode 0x00 the funct, picks the decoder's arm; the arm's operands are the fields of
R51 as arithmetic. -/
theorem decoderReadsEveryRow : Obligations.DecoderReadsEveryRow := by
  intro w
  have rtype {fn : Funct} := decodeWord_rtype (w := w) (fn := fn)
  have other {op : Opcode} := decodeWord_opcode (w := w) (op := op)
  rw [partition_eq] at rtype other
  refine ⟨rtype (fn := 0x20), rtype (fn := 0x22), rtype (fn := 0x24), rtype (fn := 0x25), rtype (fn := 0x2A),
    rtype (fn := 0x2B), ?illegalFunct, other (op := 0x02), other (op := 0x04), other (op := 0x08), other (op := 0x0A),
    other (op := 0x0B), other (op := 0x0F), other (op := 0x23), other (op := 0x2B), ?illegalOpcode⟩
  case illegalFunct =>
    exact fun ho hf => (decodeWord_of_opcode_zero ho).trans (decodeFunct_of_notMem (partition_funct_notMem hf))
  case illegalOpcode => exact fun ho => decodeFields_of_notMem (partition_opcode_notMem ho)

/-- Settles O2: with the fields as quotients and remainders, the cuts and the overlaps are linear arithmetic. -/
theorem partitionCutsEveryWord : Obligations.PartitionCutsEveryWord := by
  intro w
  have := w.isLt
  simp only [partition_eq, BitVec.toNat_ofNat, true_and]
  omega

/-- Settles O9: neither decoder has a row for the opcode, and neither looks at the registers. -/
theorem illegalOpcodeHalts : Obligations.IllegalOpcodeHalts := by
  intro s w h
  have hop := partition_opcode_notMem h
  have hc := decodeControl_of_notMem hop
  exact ⟨fun hf => step_of_illegal hf (decodeFields_of_notMem hop), hc, executeStages_of_control_error s hc⟩

/-- Settles O10: opcode 0x00 has the sentinel row, so the funct is looked up, in a table that lacks it. -/
theorem illegalFunctHalts : Obligations.IllegalFunctHalts := by
  have stop {s : State} {w : Word} (ho : w.toNat / 2 ^ 26 = 0) (hfn : (partition w).funct ∉ acceptedFuncts)
      (hf : s.fetch = .ok w) : step s = .fault .illegalFunct :=
    step_of_illegal hf ((decodeWord_of_opcode_zero ho).trans (decodeFunct_of_notMem hfn))
  refine ⟨fun s w ho h => ⟨stop ho (partition_funct_notMem h), ?_⟩, fun s => stop rfl (by decide)⟩
  exact executeStages_of_resolve_error (c := rowRType) s (by rw [partition_opcode_eq (op := 0) ho]; rfl)
    (functOp_of_notMem (partition_funct_notMem h))

end Sys2Proof.Machine
end

-- Proofs of the family 40_alu.md.
section
/-! PROOFS. What each ALU operation computes, when Zero is set, which operands matter, and the sign extender
(40_alu.md R71 to R82). -/

namespace Sys2Proof.Machine

/-! ### The results -/

theorem boolWord_decide (p : Prop) [Decidable p] : boolWord (decide p) = if p then 1 else 0 := by
  simp only [boolWord, decide_eq_true_eq]

theorem boolWord_inj {b c : Bool} : boolWord b = boolWord c ↔ b = c := by
  cases b <;> cases c <;> decide

theorem aluResult_add_toNat (a b : Word) : (aluResult .add a b).toNat = (a.toNat + b.toNat) % 2 ^ 32 :=
  BitVec.toNat_add a b

theorem aluResult_sub_toNat (a b : Word) : (aluResult .sub a b).toNat = (2 ^ 32 + a.toNat - b.toNat) % 2 ^ 32 := by
  have hb := b.isLt
  rw [aluResult, BitVec.toNat_sub, Nat.sub_add_comm (Nat.le_of_lt hb)]

theorem aluResult_slt (a b : Word) : aluResult .slt a b = if a.toInt < b.toInt then 1 else 0 :=
  boolWord_decide _

theorem aluResult_sltu (a b : Word) : aluResult .sltu a b = if a.toNat < b.toNat then 1 else 0 :=
  boolWord_decide _

theorem aluResult_or (a b : Word) : aluResult .or a b = if a ||| b ≠ 0 then 1 else 0 := by
  simp only [aluResult, boolWord, bne_iff_ne]

/-- The shift moves the low half up and loses the upper half (R78). -/
theorem aluResult_shiftLeft16_toNat (a b : Word) : (aluResult .shiftLeft16 a b).toNat = b.toNat % 2 ^ 16 * 2 ^ 16 := by
  rw [aluResult, BitVec.toNat_shiftLeft, Nat.shiftLeft_eq]
  omega

theorem aluResult_not (a b : Word) : aluResult .not a b = ~~~a := rfl

/-! ### The Zero flag -/

@[simp] theorem zeroFlag_iff (v : Word) : zeroFlag v = true ↔ v = 0 := beq_iff_eq

theorem alu_zero_iff (op : AluOp) (a b : Word) : (alu op a b).zero = true ↔ (alu op a b).result = 0 :=
  zeroFlag_iff _

theorem aluBySelector_zero_iff (sel : BitVec 4) (a b : Word) :
    (aluBySelector sel a b).zero = true ↔ (aluBySelector sel a b).result = 0 := by
  rw [aluBySelector]
  split
  · exact alu_zero_iff _ a b
  · exact zeroFlag_iff 0

/-! ### The operations that reach the ALU -/

/-- The rows of the control table (41_datapath.md R94). -/
def controlRows : List ControlVector :=
  [rowRType, rowJ, rowBeq, rowImmediate .add, rowImmediate .slt, rowImmediate .sltu, rowImmediate .shiftLeft16,
    rowLw, rowSw]

theorem decodeControl_mem_controlRows {opcode : Opcode} {c : ControlVector} (h : decodeControl opcode = .ok c) :
    c ∈ controlRows := by
  have accepted : ∀ op ∈ acceptedOpcodes, ∀ row, decodeControl op = .ok row → row ∈ controlRows := by
    simp [acceptedOpcodes, decodeControl, controlRows]
  by_cases hm : opcode ∈ acceptedOpcodes
  · exact accepted opcode hm c h
  · exact nomatch h.symm.trans (decodeControl_of_notMem hm)

/-- The operations the funct table names (R106). -/
def functOps : List AluOp := [.add, .sub, .and, .or, .slt, .sltu]

theorem functOp_mem_functOps {funct : Funct} {o : AluOp} (h : functOp funct = .ok o) : o ∈ functOps := by
  have accepted : ∀ fn ∈ acceptedFuncts, ∀ op, functOp fn = .ok op → op ∈ functOps := by
    simp [acceptedFuncts, functOp, functOps]
  by_cases hm : funct ∈ acceptedFuncts
  · exact accepted funct hm o h
  · exact nomatch h.symm.trans (functOp_of_notMem hm)

/-- Everything a resolution can answer (R106). -/
theorem resolveOp_ok {p : ALUOp} {funct : Funct} {o : AluOp} (h : resolveOp p funct = .ok o) :
    p = .op o ∨ p = .rtype ∧ functOp funct = .ok o := by
  cases p with
  | op o' => cases h; exact .inl rfl
  | rtype => exact .inr ⟨rfl, h⟩

/-- Everything the stages up to the ALU produce when none of them halts. -/
theorem executeStages_ok {s : State} {w : Word} {e : Executed} (h : executeStages s w = .ok e) :
    ∃ c o, decodeControl (partition w).opcode = .ok c ∧ resolveOp c.aluOp (partition w).funct = .ok o ∧
      e = { fields := partition w
            control := c
            data1 := s.readReg (partition w).r1
            data2 := s.readReg (partition w).r2
            ext := sext16 (partition w).imm16
            alu := alu o (s.readReg (partition w).r1)
              (selectOperand c.aluSrc (s.readReg (partition w).r2) (sext16 (partition w).imm16)) } := by
  cases hc : decodeControl (partition w).opcode with
  | error k => rw [executeStages_of_control_error s hc] at h; cases h
  | ok c =>
    cases hr : resolveOp c.aluOp (partition w).funct with
    | error k => rw [executeStages_of_resolve_error s hc hr] at h; cases h
    | ok o =>
      simp only [executeStages, hc, hr, registerRead, Except.ok.injEq] at h
      exact ⟨c, o, rfl, hr, h.symm⟩

/-! ### The sign extender -/

theorem sext16_toNat (v : Imm16) :
    (sext16 v).toNat = if v.toNat < 0x8000 then v.toNat else 0xFFFF0000 + v.toNat := by
  have hv := v.isLt
  rw [sext16, BitVec.toNat_signExtend, BitVec.msb_eq_decide, BitVec.toNat_setWidth]
  simp only [decide_eq_true_eq]
  split <;> split <;> omega

theorem sext16_toInt (v : Imm16) :
    (sext16 v).toInt = if v.toNat < 0x8000 then (v.toNat : Int) else (v.toNat : Int) - 65536 := by
  rw [sext16, BitVec.toInt_signExtend_of_le (by decide), BitVec.toInt_eq_toNat_cond]
  split <;> split <;> omega

/-- Truncating undoes the extension (R82). -/
theorem sext16_extractLsb' (v : Imm16) : (sext16 v).extractLsb' 0 16 = v := by
  have hv := v.isLt
  apply BitVec.eq_of_toNat_eq
  rw [BitVec.extractLsb'_toNat, sext16_toNat, Nat.shiftRight_zero]
  split <;> omega

/-! ### The obligations -/

/-- Settles O11: the results as numbers; a difference is 0 only for equal operands. -/
theorem aluAddAndSubWrap : Obligations.AluAddAndSubWrap := fun a b =>
  ⟨aluResult_add_toNat a b, aluResult_sub_toNat a b, by rw [alu_sub_zero, decide_eq_true_eq]⟩

/-- Settles O12: slt's Zero is set in the else arm of its comparison. -/
theorem aluComparesTrueValues : Obligations.AluComparesTrueValues := by
  intro a b
  refine ⟨aluResult_slt a b, ?_, aluResult_sltu a b⟩
  rw [alu_zero_iff, alu_result, aluResult_slt, ← Int.not_lt]
  split <;> simp [*]

/-- Settles O14: a bitwise OR is 0 only for two zero operands. -/
theorem aluOrIsReduced : Obligations.AluOrIsReduced := by
  intro a b
  have nonzero : a ||| b ≠ 0 ↔ a ≠ 0 ∨ b ≠ 0 := (not_congr BitVec.or_eq_zero_iff).trans not_and_or
  exact ⟨aluResult_or a b, by simp only [alu_result, aluResult_or, nonzero]⟩

/-- Settles O15: shift and complement as numbers; neither the control rows nor the funct table name not. -/
theorem aluShiftAndNot : Obligations.AluShiftAndNot := by
  refine ⟨fun a b => ⟨aluResult_shiftLeft16_toNat a b, ?shiftZero⟩, fun a b => ⟨rfl, BitVec.toNat_not, ?notZero⟩,
    ?unreached⟩
  case shiftZero =>
    rw [alu_zero_iff, alu_result, ← BitVec.toNat_inj, aluResult_shiftLeft16_toNat]
    exact Nat.mul_eq_zero.trans (or_iff_left (by decide))
  case notZero =>
    rw [alu_zero_iff, alu_result, aluResult_not]
    exact BitVec.not_eq_comm
  case unreached =>
    intro opcode funct c hc hnot
    rcases resolveOp_ok hnot with hop | ⟨-, hfn⟩
    · have rows : ∀ row ∈ controlRows, row.aluOp ≠ .op .not := by decide
      exact rows c (decodeControl_mem_controlRows hc) hop
    · exact absurd (functOp_mem_functOps hfn) (by decide)

/-- Settles O16: each case of the ALU computes Zero from the result it outputs. -/
theorem zeroFlagSaysResultIsZero : Obligations.ZeroFlagSaysResultIsZero :=
  ⟨aluBySelector_zero_iff, alu_zero_iff, by decide⟩

/-- Flipping one operand from 0 to 1 changes the output of each two-operand operation. The operand held still is 1 while
`a` flips, but 0 for `or`, which a 1 would absorb; it is 0 while `b` flips, but 1 for `and`, which a 0 would absorb. -/
theorem alu_flip_operand_ne : ∀ op ∈ [AluOp.add, .sub, .slt, .sltu, .and, .or],
    alu op 0 (if op = .or then 0 else 1) ≠ alu op 1 (if op = .or then 0 else 1) ∧
    alu op (if op = .and then 1 else 0) 0 ≠ alu op (if op = .and then 1 else 0) 1 := by
  decide

/-- The comparisons differ by the exclusive or of the sign bits (R81). -/
theorem aluResult_slt_ne_sltu (a b : Word) : aluResult .slt a b ≠ aluResult .sltu a b ↔ a.msb ≠ b.msb := by
  have hlt : a.slt b = (a.msb != b.msb ^^ a.ult b) := BitVec.slt_eq_ult
  have hinj : aluResult .slt a b = aluResult .sltu a b ↔ a.slt b = a.ult b := boolWord_inj
  rw [ne_eq, hinj, hlt]
  cases a.msb <;> cases b.msb <;> simp

/-- Settles O18: the comparison law, the not law, and for each operation a change of output where it reads an operand,
none where it does not. -/
theorem aluLaws : Obligations.AluLaws := by
  refine ⟨aluResult_slt_ne_sltu, fun a b => ⟨rfl, alu_zero_iff .not a b⟩, fun op hop => ?_,
    ⟨fun _ _ _ => rfl, 0, 0, 1, by decide⟩, ⟨fun _ _ _ => rfl, 0, 1, 0, by decide⟩, fun sel a a' b b' hsel => ?_⟩
  · obtain ⟨ha, hb⟩ := alu_flip_operand_ne op hop
    exact ⟨⟨_, _, _, ha⟩, ⟨_, _, _, hb⟩⟩
  · simp only [aluBySelector, hsel]

/-- Settles O19: the extension as numbers, and the stages, whose operand selection passes the extension on. -/
theorem signExtension : Obligations.SignExtension := by
  refine ⟨fun v => ⟨sext16_toNat v, sext16_toInt v, sext16_extractLsb' v⟩, fun s w e h => ?_⟩
  obtain ⟨c, o, -, hr, rfl⟩ := executeStages_ok h
  exact ⟨rfl, fun hsrc => ⟨o, hr, by simp only [show c.aluSrc = .immediate from hsrc, selectOperand]⟩⟩

end Sys2Proof.Machine
end

-- Proofs of the family 41_datapath.md.
section
/-! PROOFS. What the datapath's stages read, resolve, access and commit (41_datapath.md R103 to R119). -/

namespace Sys2Proof.Machine

/-! ### Operation resolution -/

theorem funct_notMem_acceptedFuncts {funct : Funct} (h : funct.toNat ∉ [0x20, 0x22, 0x24, 0x25, 0x2A, 0x2B]) :
    funct ∉ acceptedFuncts := fun hm => h (List.mem_map_of_mem (f := BitVec.toNat) hm)

/-! ### Memory Access -/

/-- An admitted read gives the cell that begins at the address itself (R110). -/
theorem memoryAccess_read_of_admitted {addr : Word} (h : isAdmitted addr = true) (data2 : Word) (m : Memory) :
    memoryAccess true false addr data2 m = .next ⟨m.readWord addr.toNat, m⟩ := by
  simp only [memoryAccess, if_pos h, four_mul_wordIndex ((admit_iff addr).mp h).1]

/-- An admitted write replaces the cell that begins at the address itself (R111). -/
theorem memoryAccess_write_of_admitted {addr : Word} (h : isAdmitted addr = true) (data2 : Word) (m : Memory) :
    memoryAccess false true addr data2 m = .next ⟨Config.idleMemdata, m.writeWord addr.toNat data2⟩ := by
  simp only [memoryAccess, if_pos h, four_mul_wordIndex ((admit_iff addr).mp h).1]

theorem memoryAccess_idle (addr data2 : Word) (m : Memory) :
    memoryAccess false false addr data2 m = .next ⟨Config.idleMemdata, m⟩ := rfl

/-! ### Program-Counter Update -/

/-- The branch is applied to pc + 4, and the jump to the outcome (R116 to R118). -/
theorem pcUpdate_eq (branch jump zero : Bool) (pc : Word) (imm16 : Imm16) (target26 : Target26) :
    pcUpdate branch jump zero pc imm16 target26 =
      let npc := if branch = true ∧ zero = true then branchTarget (nextPc pc) imm16 else nextPc pc
      if jump = true then jumpTarget npc target26 else npc := by
  simp only [pcUpdate, Bool.and_eq_true]

theorem decodeControl_branch_jump_exclusive {opcode : Opcode} {c : ControlVector} (h : decodeControl opcode = .ok c) :
    ¬ (c.branch = true ∧ c.jump = true) := by
  have rows : ∀ row ∈ controlRows, ¬ (row.branch = true ∧ row.jump = true) := by decide
  exact rows c (decodeControl_mem_controlRows h)

/-! ### The obligations -/

/-- Settles O22: past the decoder and the resolution, the stages carry the two reads along as they are. -/
theorem registerReadGivesStoredValues : Obligations.RegisterReadGivesStoredValues := by
  refine ⟨fun _ _ _ => rfl, fun s w e h => ?_⟩
  obtain ⟨c, o, -, -, rfl⟩ := executeStages_ok h
  exact ⟨rfl, rfl⟩

/-- Settles O23: the six rows of the funct table by evaluation, every other funct by the table's last arm. -/
theorem operationResolution : Obligations.OperationResolution :=
  ⟨fun _ _ => rfl, rfl, rfl, rfl, rfl, rfl, rfl, fun _ h => functOp_of_notMem (funct_notMem_acceptedFuncts h)⟩

/-- Settles O24: an admitted access is a read or a write of the cell at the address, and memory's laws say what a write
of a cell does. -/
theorem memoryAccessReadsWritesOrIdles : Obligations.MemoryAccessReadsWritesOrIdles := by
  refine fun addr data2 m => ⟨fun h4 hlt => ?_, _, memoryAccess_idle addr data2 m, rfl⟩
  have hadm : isAdmitted addr = true := (admit_iff addr).mpr ⟨h4, hlt⟩
  exact ⟨memoryAccess_read_of_admitted hadm data2 m, _, memoryAccess_write_of_admitted hadm data2 m,
    fun hm => Memory.readWord_writeWord_self hm _ _, fun a ha => Memory.readByte_writeWord_of_ne m data2 ha⟩

/-- Settles O27: the two targets are the statement's own expressions, and no row of the control table sets both flags. -/
theorem pcUpdateOrder : Obligations.PcUpdateOrder :=
  ⟨pcUpdate_eq, fun _ _ h => decodeControl_branch_jump_exclusive h⟩

end Sys2Proof.Machine
end

-- Proofs of the family 42_rtype.md.
section
/-! PROOFS. What the register-type instructions write and leave unchanged, and which words decode to them (42_rtype.md R130
to R136). -/

namespace Sys2Proof

/-! ### The R-type match and mask -/

/-- The mask of the R-type rows keeps every bit of the opcode and of the funct (R57). -/
theorem partition_and_rtypeMask (w : Word) :
    (partition (w &&& 0xFC00003F)).opcode = (partition w).opcode ∧
    (partition (w &&& 0xFC00003F)).funct = (partition w).funct := by
  have opcodeBits : (0xFC00003F : Word).extractLsb' 26 6 = BitVec.allOnes 6 := by decide
  have functBits : (0xFC00003F : Word).extractLsb' 0 6 = BitVec.allOnes 6 := by decide
  simp only [partition, BitVec.extractLsb'_and, opcodeBits, functBits, BitVec.and_allOnes, and_self]

/-- A word under an R-type row's match and mask has opcode 0x00, and the row's funct picks the instruction. -/
theorem decodeWord_of_rtypeMatch {w : Word} {fn : Funct} (h : w &&& 0xFC00003F = encodeR fn 0 0 0) :
    decodeWord w = decodeFunct { partition w with funct := fn } := by
  obtain ⟨hopcode, hfunct⟩ := partition_and_rtypeMask w
  obtain ⟨hzero, -, -, -, hfn⟩ := partition_encodeR fn 0 0 0
  rw [h] at hopcode hfunct
  rw [decodeWord, decodeFields, if_pos (hopcode.symm.trans hzero), ← hfunct.symm.trans hfn]

end Sys2Proof

namespace Sys2Proof.Machine

/-! ### The write of a register -/

/-- Writing a register and advancing is a change of that register and of the pc alone. -/
theorem writeReg_advance_writesOnly (s : State) (d : RegIdx) (v : Word) : WritesOnly s (s.writeReg d v).advance d v where
  value := s.writeReg_readReg_self d v
  others _ h := s.writeReg_readReg_of_ne v h
  memory _ := rfl
  pc := rfl

/-- The write of an ALU result completes in every state, with the frame of a register write (R136). -/
theorem aluWrite_writesOnly (s : State) (d : RegIdx) {op : AluOp} {a b v : Word} (hv : aluResult op a b = v) :
    ∃ t, aluWrite op a b d s = .next t ∧ WritesOnly s t d v :=
  ⟨_, aluWrite_eq op a b d s, hv ▸ writeReg_advance_writesOnly s d (aluResult op a b)⟩

/-- The reduced OR with its test on the operands themselves: a bitwise OR is 0 only for two zero operands (40_alu.md R77). -/
theorem aluResult_or_eq_ite_and (a b : Word) : aluResult .or a b = if a = 0 ∧ b = 0 then 0 else 1 := by
  rw [aluResult_or, ite_not]
  exact if_congr BitVec.or_eq_zero_iff rfl rfl

/-! ### The obligations -/

/-- Settles O29: the ALU's sum is written whatever the registers hold, and the funct row 0x20 is the statement's match. -/
theorem addWritesWrappedSum : Obligations.AddWritesWrappedSum := by
  refine ⟨fun s r1 r2 r3 => ?_, fun w h => decodeWord_of_rtypeMatch (fn := 0x20) h, fun _ _ _ => rfl⟩
  obtain ⟨t, hexec, hwrites⟩ := aluWrite_writesOnly s r3 rfl
  exact ⟨t, _, hexec, hwrites, aluResult_add_toNat _ _⟩

/-- Settles O30: the ALU's difference, x[r1] its first operand, is written whatever the registers hold. -/
theorem subWritesWrappedDifference : Obligations.SubWritesWrappedDifference := by
  refine ⟨fun s r1 r2 r3 => ?_, fun w h => decodeWord_of_rtypeMatch (fn := 0x22) h, fun _ _ _ => rfl⟩
  obtain ⟨t, hexec, hwrites⟩ := aluWrite_writesOnly s r3 rfl
  exact ⟨t, _, hexec, hwrites, aluResult_sub_toNat _ _⟩

/-- Settles O32: the reduced OR is written whatever the registers hold. -/
theorem orWritesReducedOr : Obligations.OrWritesReducedOr :=
  ⟨fun s _ _ r3 => aluWrite_writesOnly s r3 (aluResult_or_eq_ite_and _ _),
    fun _ h => decodeWord_of_rtypeMatch (fn := 0x25) h, fun _ _ _ => rfl⟩

/-- Settles O33: the signed comparison is written whatever the registers hold. -/
theorem sltWritesSignedComparison : Obligations.SltWritesSignedComparison :=
  ⟨fun s _ _ r3 => aluWrite_writesOnly s r3 (aluResult_slt _ _),
    fun _ h => decodeWord_of_rtypeMatch (fn := 0x2A) h, fun _ _ _ => rfl⟩

/-- Settles O34: the unsigned comparison is written whatever the registers hold. -/
theorem sltuWritesUnsignedComparison : Obligations.SltuWritesUnsignedComparison :=
  ⟨fun s _ _ r3 => aluWrite_writesOnly s r3 (aluResult_sltu _ _),
    fun _ h => decodeWord_of_rtypeMatch (fn := 0x2B) h, fun _ _ _ => rfl⟩

end Sys2Proof.Machine
end

-- Proofs of the family other.
section
/-! PROOFS. The whole machine: decoding against encoding, the instruction-level step against the stages and the block's
outputs, what an execution changes and when it halts, and what a run keeps. -/

namespace Sys2Proof

/-! ### What a decoding can answer -/

/-- The rows of R56 and R57 on the partitioned fields: what selects each instruction. -/
inductive Decodes (f : Fields) : Instr → Prop where
  | add (ho : f.opcode = 0x00) (hf : f.funct = 0x20) : Decodes f (.add f.r1 f.r2 f.r3)
  | sub (ho : f.opcode = 0x00) (hf : f.funct = 0x22) : Decodes f (.sub f.r1 f.r2 f.r3)
  | and (ho : f.opcode = 0x00) (hf : f.funct = 0x24) : Decodes f (.and f.r1 f.r2 f.r3)
  | or (ho : f.opcode = 0x00) (hf : f.funct = 0x25) : Decodes f (.or f.r1 f.r2 f.r3)
  | slt (ho : f.opcode = 0x00) (hf : f.funct = 0x2A) : Decodes f (.slt f.r1 f.r2 f.r3)
  | sltu (ho : f.opcode = 0x00) (hf : f.funct = 0x2B) : Decodes f (.sltu f.r1 f.r2 f.r3)
  | j (ho : f.opcode = 0x02) : Decodes f (.j f.target26)
  | beq (ho : f.opcode = 0x04) : Decodes f (.beq f.r1 f.r2 f.imm16)
  | addi (ho : f.opcode = 0x08) : Decodes f (.addi f.r1 f.r2 f.imm16)
  | slti (ho : f.opcode = 0x0A) : Decodes f (.slti f.r1 f.r2 f.imm16)
  | sltiu (ho : f.opcode = 0x0B) : Decodes f (.sltiu f.r1 f.r2 f.imm16)
  | lui (ho : f.opcode = 0x0F) : Decodes f (.lui f.r2 f.imm16)
  | lw (ho : f.opcode = 0x23) : Decodes f (.lw f.r1 f.r2 f.imm16)
  | sw (ho : f.opcode = 0x2B) : Decodes f (.sw f.r1 f.r2 f.imm16)

theorem Decodes.decodeFields_eq {f : Fields} {i : Instr} (h : Decodes f i) : decodeFields f = .ok i := by
  obtain ⟨op, r1, r2, r3, fn, imm16, target26⟩ := f
  cases h with
  | add ho hf | sub ho hf | and ho hf | or ho hf | slt ho hf | sltu ho hf =>
    dsimp only at ho hf
    subst ho hf
    rfl
  | j ho | beq ho | addi ho | slti ho | sltiu ho | lui ho | lw ho | sw ho =>
    dsimp only at ho
    subst ho
    rfl

/-- Under opcode 0x00 the funct is one of the six, or illegal (R57, R59). -/
theorem decodes_of_opcode_zero {f : Fields} (ho : f.opcode = 0x00) :
    (∃ i, Decodes f i) ∨ f.funct ∉ acceptedFuncts := by
  refine or_iff_not_imp_right.mpr fun h => ?_
  simp only [acceptedFuncts, not_not, List.mem_cons, List.not_mem_nil, or_false] at h
  rcases h with h | h | h | h | h | h
  · exact ⟨_, .add ho h⟩
  · exact ⟨_, .sub ho h⟩
  · exact ⟨_, .and ho h⟩
  · exact ⟨_, .or ho h⟩
  · exact ⟨_, .slt ho h⟩
  · exact ⟨_, .sltu ho h⟩

/-- Everything a decoding can answer (R60): an instruction of its row, an illegal funct, an illegal opcode. -/
theorem decodeFields_cases (f : Fields) :
    (∃ i, Decodes f i ∧ decodeFields f = .ok i) ∨
    (f.opcode = 0x00 ∧ f.funct ∉ acceptedFuncts ∧ decodeFields f = .error .funct) ∨
    (f.opcode ∉ acceptedOpcodes ∧ decodeFields f = .error .opcode) := by
  have row {i : Instr} (h : Decodes f i) : ∃ i, Decodes f i ∧ decodeFields f = .ok i := ⟨i, h, h.decodeFields_eq⟩
  by_cases hop : f.opcode ∈ acceptedOpcodes
  · simp only [acceptedOpcodes, List.mem_cons, List.not_mem_nil, or_false] at hop
    rcases hop with ho | ho | ho | ho | ho | ho | ho | ho | ho
    · rcases decodes_of_opcode_zero ho with ⟨i, h⟩ | hfn
      · exact .inl (row h)
      · exact .inr (.inl ⟨ho, hfn, (if_pos ho).trans (decodeFunct_of_notMem hfn)⟩)
    · exact .inl (row (.j ho))
    · exact .inl (row (.beq ho))
    · exact .inl (row (.addi ho))
    · exact .inl (row (.slti ho))
    · exact .inl (row (.sltiu ho))
    · exact .inl (row (.lui ho))
    · exact .inl (row (.lw ho))
    · exact .inl (row (.sw ho))
  · exact .inr (.inr ⟨hop, decodeFields_of_notMem hop⟩)

theorem decodeWord_eq_ok_iff {w : Word} {i : Instr} : decodeWord w = .ok i ↔ Decodes (partition w) i := by
  refine ⟨fun h => ?_, Decodes.decodeFields_eq⟩
  rcases decodeFields_cases (partition w) with ⟨i', hd, e⟩ | ⟨-, -, e⟩ | ⟨-, e⟩ <;> cases h.symm.trans e
  exact hd

/-! ### Decoding and encoding -/

theorem decodeWord_encode (i : Instr) : decodeWord (encode i) = .ok i := by
  have rtype (fn r1 r2 r3) : decodeWord (encodeR fn r1 r2 r3) =
      decodeFields { partition (encodeR fn r1 r2 r3) with opcode := 0, r1 := r1, r2 := r2, r3 := r3, funct := fn } := by
    obtain ⟨ho, h1, h2, h3, hf⟩ := partition_encodeR fn r1 r2 r3
    rw [decodeWord]
    generalize partition (encodeR fn r1 r2 r3) = f at *
    subst h1 h2 h3 hf
    rw [← ho]
  have itype (op r1 r2 imm16) : decodeWord (encodeI op r1 r2 imm16) =
      decodeFields { partition (encodeI op r1 r2 imm16) with opcode := op, r1 := r1, r2 := r2, imm16 := imm16 } := by
    obtain ⟨ho, h1, h2, hi⟩ := partition_encodeI op r1 r2 imm16
    rw [decodeWord]
    generalize partition (encodeI op r1 r2 imm16) = f at *
    subst ho h1 h2 hi
    rfl
  cases i with
  | add | sub | and | or | slt | sltu => exact rtype _ _ _ _
  | beq | addi | slti | sltiu | lw | sw => exact itype _ _ _ _
  | j target26 =>
    obtain ⟨ho, ht⟩ := partition_encodeJ 0x02 target26
    exact (Decodes.j ho).decodeFields_eq.trans (by rw [ht])
  | lui r2 imm16 =>
    obtain ⟨ho, h2, hi⟩ := partition_encodeLui 0x0F r2 imm16
    exact (Decodes.lui ho).decodeFields_eq.trans (by rw [h2, hi])

theorem encode_of_decodes {w : Word} {i : Instr} (h : Decodes (partition w) i) : encode i = w &&& usedBits i := by
  cases h with
  | add ho hf | sub ho hf | and ho hf | or ho hf | slt ho hf | sltu ho hf =>
    rw [encode, ← hf, encodeR_partition, and_of_opcode_zero ho, usedBits]
  | beq ho | addi ho | slti ho | sltiu ho | lw ho | sw ho =>
    rw [encode, ← ho, encodeI_partition]
    exact BitVec.and_allOnes.symm
  | j ho =>
    rw [encode, ← ho, encodeJ_partition]
    exact BitVec.and_allOnes.symm
  | lui ho => rw [encode, ← ho, encodeLui_partition, usedBits]

/-! ### The ignored bits -/

/-- Clearing bits 10 to 6 reaches no field that the R-format uses (R53). -/
theorem partition_and_rtypeUsed (w : Word) :
    partition (w &&& 0xFFFFF83F) =
      { partition w with
        imm16 := (partition (w &&& 0xFFFFF83F)).imm16
        target26 := (partition (w &&& 0xFFFFF83F)).target26 } := by
  have opcodeBits : (0xFFFFF83F : Word).extractLsb' 26 6 = BitVec.allOnes 6 := by decide
  have r1Bits : (0xFFFFF83F : Word).extractLsb' 21 5 = BitVec.allOnes 5 := by decide
  have r2Bits : (0xFFFFF83F : Word).extractLsb' 16 5 = BitVec.allOnes 5 := by decide
  have r3Bits : (0xFFFFF83F : Word).extractLsb' 11 5 = BitVec.allOnes 5 := by decide
  have functBits : (0xFFFFF83F : Word).extractLsb' 0 6 = BitVec.allOnes 6 := by decide
  simp only [partition, BitVec.extractLsb'_and, opcodeBits, r1Bits, r2Bits, r3Bits, functBits, BitVec.and_allOnes]

/-- Clearing field r1 reaches no field that lui uses (R53). -/
theorem partition_and_luiUsed (w : Word) :
    partition (w &&& 0xFC1FFFFF) =
      { partition w with
        r1 := (partition (w &&& 0xFC1FFFFF)).r1
        target26 := (partition (w &&& 0xFC1FFFFF)).target26 } := by
  have opcodeBits : (0xFC1FFFFF : Word).extractLsb' 26 6 = BitVec.allOnes 6 := by decide
  have r2Bits : (0xFC1FFFFF : Word).extractLsb' 16 5 = BitVec.allOnes 5 := by decide
  have r3Bits : (0xFC1FFFFF : Word).extractLsb' 11 5 = BitVec.allOnes 5 := by decide
  have functBits : (0xFC1FFFFF : Word).extractLsb' 0 6 = BitVec.allOnes 6 := by decide
  have immBits : (0xFC1FFFFF : Word).extractLsb' 0 16 = BitVec.allOnes 16 := by decide
  simp only [partition, BitVec.extractLsb'_and, opcodeBits, r2Bits, r3Bits, functBits, immBits, BitVec.and_allOnes]

theorem decodeWord_and_rtypeUsed {w : Word} (ho : (partition (w &&& 0xFFFFF83F)).opcode = 0x00) :
    decodeWord (w &&& 0xFFFFF83F) = decodeWord w := by
  rw [partition_and_rtypeUsed] at ho
  rw [decodeWord, decodeWord, partition_and_rtypeUsed, decodeFields, decodeFields, if_pos ho, if_pos ho]
  rfl

theorem decodeWord_and_luiUsed {w : Word} (ho : (partition (w &&& 0xFC1FFFFF)).opcode = 0x0F) :
    decodeWord (w &&& 0xFC1FFFFF) = decodeWord w := by
  have ho' : (partition w).opcode = 0x0F := by rwa [partition_and_luiUsed] at ho
  calc decodeWord (w &&& 0xFC1FFFFF)
      = .ok (.lui (partition (w &&& 0xFC1FFFFF)).r2 (partition (w &&& 0xFC1FFFFF)).imm16) :=
        (Decodes.lui ho).decodeFields_eq
    _ = .ok (.lui (partition w).r2 (partition w).imm16) := by rw [partition_and_luiUsed]
    _ = decodeWord w := (Decodes.lui ho').decodeFields_eq.symm

/-- A word decodes to what it decodes to with the ignored bits of that instruction cleared. -/
theorem decodeWord_of_and_usedBits {w : Word} {i : Instr} (h : decodeWord (w &&& usedBits i) = .ok i) :
    decodeWord w = .ok i := by
  cases i with
  | add | sub | and | or | slt | sltu =>
    change decodeWord (w &&& 0xFFFFF83F) = _ at h
    rw [← h, decodeWord_and_rtypeUsed (by cases decodeWord_eq_ok_iff.mp h; assumption)]
  | lui =>
    change decodeWord (w &&& 0xFC1FFFFF) = _ at h
    rw [← h, decodeWord_and_luiUsed (by cases decodeWord_eq_ok_iff.mp h; assumption)]
  | j | beq | addi | slti | sltiu | lw | sw =>
    rw [← h]
    exact congrArg decodeWord BitVec.and_allOnes.symm

/-! ### The opcode table -/

/-- The mask of the other rows keeps every bit of the opcode (R56). -/
theorem partition_and_opcodeMask (w : Word) : (partition (w &&& 0xFC000000)).opcode = (partition w).opcode := by
  have opcodeBits : (0xFC000000 : Word).extractLsb' 26 6 = BitVec.allOnes 6 := by decide
  simp only [partition, BitVec.extractLsb'_and, opcodeBits, BitVec.and_allOnes]

theorem partition_opcode_of_opcodeMatch {w : Word} {op : Opcode} (h : w &&& 0xFC000000 = encodeJ op 0) :
    (partition w).opcode = op := by
  rw [← partition_and_opcodeMask, h]
  exact (partition_encodeJ op 0).1

/-- A word under a row's match and mask decodes to the row's instruction. -/
theorem decodeWord_of_tableRow {w : Word} {row : OpcodeRow} (hrow : row ∈ opcodeTable)
    (h : w &&& row.mask = row.pattern) : ∃ i, decodeWord w = .ok i ∧ i.mnemonic = row.mnemonic := by
  have rtype {fn : Funct} := decodeWord_of_rtypeMatch (w := w) (fn := fn)
  have opcode {op : Opcode} := partition_opcode_of_opcodeMatch (w := w) (op := op)
  simp only [opcodeTable, List.mem_cons, List.not_mem_nil, or_false] at hrow
  rcases hrow with rfl | rfl | rfl | rfl | rfl | rfl | rfl | rfl | rfl | rfl | rfl | rfl | rfl | rfl
  · exact ⟨_, rtype (fn := 0x20) h, rfl⟩
  · exact ⟨_, rtype (fn := 0x22) h, rfl⟩
  · exact ⟨_, rtype (fn := 0x24) h, rfl⟩
  · exact ⟨_, rtype (fn := 0x25) h, rfl⟩
  · exact ⟨_, rtype (fn := 0x2A) h, rfl⟩
  · exact ⟨_, rtype (fn := 0x2B) h, rfl⟩
  · exact ⟨_, (Decodes.j (opcode h)).decodeFields_eq, rfl⟩
  · exact ⟨_, (Decodes.beq (opcode h)).decodeFields_eq, rfl⟩
  · exact ⟨_, (Decodes.addi (opcode h)).decodeFields_eq, rfl⟩
  · exact ⟨_, (Decodes.slti (opcode h)).decodeFields_eq, rfl⟩
  · exact ⟨_, (Decodes.sltiu (opcode h)).decodeFields_eq, rfl⟩
  · exact ⟨_, (Decodes.lui (opcode h)).decodeFields_eq, rfl⟩
  · exact ⟨_, (Decodes.lw (opcode h)).decodeFields_eq, rfl⟩
  · exact ⟨_, (Decodes.sw (opcode h)).decodeFields_eq, rfl⟩

theorem tableRow_eq_of_mnemonic {row other : OpcodeRow} (hrow : row ∈ opcodeTable) (hother : other ∈ opcodeTable)
    (h : row.mnemonic = other.mnemonic) : row = other :=
  List.inj_on_of_nodup_map (f := OpcodeRow.mnemonic) (l := opcodeTable) (by simp [opcodeTable]) hrow hother h

/-- The law of each instruction's row, for any instruction. -/
theorem tableRow_statement : ∀ i : Instr, Laws.TableRow.Statement i
  | .add .. => Laws.TableRow.add ..
  | .sub .. => Laws.TableRow.sub ..
  | .and .. => Laws.TableRow.and ..
  | .or .. => Laws.TableRow.or ..
  | .slt .. => Laws.TableRow.slt ..
  | .sltu .. => Laws.TableRow.sltu ..
  | .j .. => Laws.TableRow.j ..
  | .beq .. => Laws.TableRow.beq ..
  | .addi .. => Laws.TableRow.addi ..
  | .slti .. => Laws.TableRow.slti ..
  | .sltiu .. => Laws.TableRow.sltiu ..
  | .lui .. => Laws.TableRow.lui ..
  | .lw .. => Laws.TableRow.lw ..
  | .sw .. => Laws.TableRow.sw ..

/-- No row looks at a bit that some instruction ignores. -/
theorem usedBits_and_mask (i : Instr) {row : OpcodeRow} (hrow : row ∈ opcodeTable) :
    usedBits i &&& row.mask = row.mask := by
  have rows : ∀ row ∈ opcodeTable, ∀ used ∈ [(0xFFFFF83F : Word), 0xFC1FFFFF, 0xFFFFFFFF],
      used &&& row.mask = row.mask := by simp [opcodeTable]
  refine rows row hrow (usedBits i) ?_
  cases i <;> simp [usedBits]

/-- The row that has an instruction's mnemonic selects every word that decodes to the instruction. -/
theorem tableRow_of_decodeWord {w : Word} {i : Instr} {row : OpcodeRow} (hrow : row ∈ opcodeTable)
    (hd : decodeWord w = .ok i) (h : i.mnemonic = row.mnemonic) : w &&& row.mask = row.pattern := by
  obtain ⟨own, hown, hname, hmatch⟩ := tableRow_statement i
  obtain rfl : own = row := tableRow_eq_of_mnemonic hown hrow (hname.trans h)
  calc w &&& own.mask
      = w &&& usedBits i &&& own.mask := by rw [BitVec.and_assoc, usedBits_and_mask i hown]
    _ = encode i &&& own.mask := by rw [encode_of_decodes (decodeWord_eq_ok_iff.mp hd)]
    _ = own.pattern := hmatch

/-! ### The spelling -/

/-- The law of each instruction's spelling, for any instruction. -/
theorem wellFormed_statement : ∀ i : Instr, Laws.WellFormed.Statement i
  | .add .. => Laws.WellFormed.add ..
  | .sub .. => Laws.WellFormed.sub ..
  | .and .. => Laws.WellFormed.and ..
  | .or .. => Laws.WellFormed.or ..
  | .slt .. => Laws.WellFormed.slt ..
  | .sltu .. => Laws.WellFormed.sltu ..
  | .j .. => Laws.WellFormed.j ..
  | .beq .. => Laws.WellFormed.beq ..
  | .addi .. => Laws.WellFormed.addi ..
  | .slti .. => Laws.WellFormed.slti ..
  | .sltiu .. => Laws.WellFormed.sltiu ..
  | .lui .. => Laws.WellFormed.lui ..
  | .lw .. => Laws.WellFormed.lw ..
  | .sw .. => Laws.WellFormed.sw ..

theorem toInstr_toAsm (i : Instr) : i.toAsm.toInstr = i := by
  cases i with
  | add | sub | and | or | slt | sltu =>
    simp only [Instr.toAsm, AsmInstr.toInstr, AsmROp.instr, BitVec.ofNat_toNat, BitVec.setWidth_eq]
  | addi | slti | sltiu =>
    simp only [Instr.toAsm, AsmInstr.toInstr, AsmIOp.instr, BitVec.ofNat_toNat, BitVec.setWidth_eq, BitVec.ofInt_toInt]
  | lw | sw =>
    simp only [Instr.toAsm, AsmInstr.toInstr, AsmMOp.instr, BitVec.ofNat_toNat, BitVec.setWidth_eq, BitVec.ofInt_toInt]
  | beq | lui =>
    simp only [Instr.toAsm, AsmInstr.toInstr, BitVec.ofNat_toNat, BitVec.setWidth_eq, BitVec.ofInt_toInt]
  | j =>
    simp only [Instr.toAsm, AsmInstr.toInstr, Nat.mul_div_cancel_left _ (by decide : 0 < 4), BitVec.ofNat_toNat,
      BitVec.setWidth_eq]

theorem assemble_toAsm (i : Instr) : i.toAsm.assemble = some i :=
  (if_pos (wellFormed_statement i)).trans (congrArg some (toInstr_toAsm i))

theorem immOk_add_65536 {v : Int} (hlow : -32768 ≤ v) (hneg : v < 0) :
    AsmInstr.immOk (v + 65536) = AsmInstr.immOk v := by
  simp only [AsmInstr.immOk]
  congr 1 <;> rw [decide_eq_decide] <;> omega

theorem ofInt_add_65536 (v : Int) : BitVec.ofInt 16 (v + 65536) = BitVec.ofInt 16 v := by
  apply BitVec.eq_of_toInt_eq
  rw [BitVec.toInt_ofInt, BitVec.toInt_ofInt]
  exact Int.add_bmod_right v (2 ^ 16)

end Sys2Proof

namespace Sys2Proof

/-! ### Which words are illegal, in fields and in arithmetic -/

theorem Decodes.opcode_mem {f : Fields} {i : Instr} (h : Decodes f i) : f.opcode ∈ acceptedOpcodes := by
  cases h with
  | add ho | sub ho | and ho | or ho | slt ho | sltu ho | j ho | beq ho | addi ho | slti ho | sltiu ho | lui ho | lw ho
  | sw ho => rw [ho]; decide

theorem Decodes.funct_mem {f : Fields} {i : Instr} (h : Decodes f i) (h0 : f.opcode = 0x00) :
    f.funct ∈ acceptedFuncts := by
  cases h with
  | add _ hf | sub _ hf | and _ hf | or _ hf | slt _ hf | sltu _ hf => rw [hf]; decide
  | j ho | beq ho | addi ho | slti ho | sltiu ho | lui ho | lw ho | sw ho => exact absurd (ho.symm.trans h0) (by decide)

theorem partition_opcode_mem_iff {w : Word} : (partition w).opcode ∈ acceptedOpcodes ↔
    w.toNat / 2 ^ 26 ∈ [0x00, 0x02, 0x04, 0x08, 0x0A, 0x0B, 0x0F, 0x23, 0x2B] := by
  rw [← partition_opcode_toNat]
  exact (List.mem_map_of_injective BitVec.toNat_injective).symm

theorem partition_funct_mem_iff {w : Word} : (partition w).funct ∈ acceptedFuncts ↔
    w.toNat % 2 ^ 6 ∈ [0x20, 0x22, 0x24, 0x25, 0x2A, 0x2B] := by
  rw [← partition_funct_toNat]
  exact (List.mem_map_of_injective BitVec.toNat_injective).symm

theorem partition_opcode_eq_iff {w : Word} (op : Opcode) : (partition w).opcode = op ↔ w.toNat / 2 ^ 26 = op.toNat := by
  rw [← partition_opcode_toNat, BitVec.toNat_inj]

end Sys2Proof

namespace Sys2Proof.Machine

/-! ### How an execution stops -/

theorem admit_false_iff {a : Word} : isAdmitted a = false ↔ ¬ (a.toNat % 4 = 0 ∧ a.toNat < 65535) := by
  rw [← Bool.not_eq_true, admit_iff]

theorem execLw_fault_iff {r1 r2 : RegIdx} {imm16 : Imm16} {s : State} {k : Fault} :
    execLw r1 r2 imm16 s = .fault k ↔ k = .badMemAccess ∧ isAdmitted (s.effectiveAddr r1 imm16) = false := by
  rcases execLw_cases r1 r2 imm16 s with ⟨ha, e⟩ | ⟨ha, e⟩ <;> simp [e, ha, eq_comm]

theorem execSw_fault_iff {r1 r2 : RegIdx} {imm16 : Imm16} {s : State} {k : Fault} :
    execSw r1 r2 imm16 s = .fault k ↔ k = .badMemAccess ∧ isAdmitted (s.effectiveAddr r1 imm16) = false := by
  rcases execSw_cases r1 r2 imm16 s with ⟨ha, e⟩ | ⟨ha, e⟩ <;> simp [e, ha, eq_comm]

/-- An instruction without a data address completes. -/
theorem exec_completes_of_dataAddress_none {i : Instr} {s : State} (h : dataAddress s i = none) :
    ∃ t, exec i s = .next t := by
  cases i with
  | add | sub | and | or | slt | sltu | addi | slti | sltiu | lui => exact ⟨_, aluWrite_eq ..⟩
  | j => exact ⟨_, rfl⟩
  | beq => exact ⟨_, execBeq_eq ..⟩
  | lw | sw => cases h

/-- The one way an execution stops (20_memory.md R32). -/
theorem exec_fault_iff {i : Instr} {s : State} {k : Fault} :
    exec i s = .fault k ↔ k = .badMemAccess ∧ ∃ a, dataAddress s i = some a ∧ isAdmitted a = false := by
  have completes (h : dataAddress s i = none) :
      exec i s = .fault k ↔ k = .badMemAccess ∧ ∃ a, dataAddress s i = some a ∧ isAdmitted a = false := by
    obtain ⟨t, ht⟩ := exec_completes_of_dataAddress_none h
    simp [ht, h]
  cases i with
  | add | sub | and | or | slt | sltu | addi | slti | sltiu | lui | j | beq => exact completes rfl
  | lw => simpa [exec, dataAddress] using execLw_fault_iff
  | sw => simpa [exec, dataAddress] using execSw_fault_iff

theorem exec_ne_refused (i : Instr) (s : State) (r : Refusal) : exec i s ≠ .refused r := by
  have completes (h : dataAddress s i = none) : exec i s ≠ .refused r := by
    obtain ⟨t, ht⟩ := exec_completes_of_dataAddress_none h
    simp [ht]
  cases i with
  | add | sub | and | or | slt | sltu | addi | slti | sltiu | lui | j | beq => exact completes rfl
  | lw r1 r2 imm16 => rcases execLw_cases r1 r2 imm16 s with ⟨-, e⟩ | ⟨-, e⟩ <;> simp [exec, e]
  | sw r1 r2 imm16 => rcases execSw_cases r1 r2 imm16 s with ⟨-, e⟩ | ⟨-, e⟩ <;> simp [exec, e]

theorem dataAddress_of_decodes {f : Fields} {i : Instr} (h : Decodes f i) (s : State) :
    dataAddress s i = if f.opcode = 0x23 ∨ f.opcode = 0x2B then some (s.effectiveAddr f.r1 f.imm16) else none := by
  cases h with
  | add ho | sub ho | and ho | or ho | slt ho | sltu ho | j ho | beq ho | addi ho | slti ho | sltiu ho | lui ho | lw ho
  | sw ho => rw [ho]; rfl

/-! ### What a step answers -/

theorem step_of_fetch_error {s : State} {k : Fault} (hf : s.fetch = .error k) : step s = .fault k := by
  simp only [step, hf, halt]

theorem step_of_decodeWord {s : State} {w : Word} {i : Instr} (hf : s.fetch = .ok w) (hd : decodeWord w = .ok i) :
    step s = exec i s := by
  simp only [step, hf, hd]

/-- Everything a step can answer, in stage order (60_exceptions.md R174). -/
theorem step_cases (s : State) :
    (s.pc.toNat % 4 ≠ 0 ∧ step s = .fault .misalignedFetch) ∨
    (s.pc.toNat % 4 = 0 ∧ 65536 ≤ s.pc.toNat ∧ step s = .fault .fetchOutOfRange) ∨
    ((s.pc.toNat % 4 = 0 ∧ s.pc.toNat < 65536) ∧
      (((partition (s.mem.readWord s.pc.toNat)).opcode ∉ acceptedOpcodes ∧ step s = .fault .illegalOpcode) ∨
      ((partition (s.mem.readWord s.pc.toNat)).opcode = 0x00 ∧
        (partition (s.mem.readWord s.pc.toNat)).funct ∉ acceptedFuncts ∧ step s = .fault .illegalFunct) ∨
      ∃ i, Decodes (partition (s.mem.readWord s.pc.toNat)) i ∧ step s = exec i s)) := by
  rcases s.fetch_cases with ⟨h4, hf⟩ | ⟨h4, hr, hf⟩ | ⟨h4, hr, hf⟩
  · exact .inl ⟨h4, step_of_fetch_error hf⟩
  · exact .inr (.inl ⟨h4, hr, step_of_fetch_error hf⟩)
  · refine .inr (.inr ⟨⟨h4, hr⟩, ?_⟩)
    rcases decodeFields_cases (partition (s.mem.readWord s.pc.toNat)) with ⟨i, hi, hd⟩ | ⟨ho, hfn, hd⟩ | ⟨ho, hd⟩
    · exact .inr (.inr ⟨i, hi, step_of_decodeWord hf hd⟩)
    · exact .inr (.inl ⟨ho, hfn, step_of_illegal hf hd⟩)
    · exact .inl ⟨ho, step_of_illegal hf hd⟩

theorem step_ne_refused (s : State) (r : Refusal) : step s ≠ .refused r := by
  rcases step_cases s with ⟨-, e⟩ | ⟨-, -, e⟩ | ⟨-, ⟨-, e⟩ | ⟨-, -, e⟩ | ⟨i, -, e⟩⟩ <;> rw [e]
  · nofun
  · nofun
  · nofun
  · nofun
  · exact exec_ne_refused i s r

theorem step_misalignedFetch_iff {s : State} : step s = .fault .misalignedFetch ↔ s.pc.toNat % 4 ≠ 0 := by
  rcases step_cases s with ⟨h4, e⟩ | ⟨h4, -, e⟩ | ⟨⟨h4, -⟩, ⟨-, e⟩ | ⟨-, -, e⟩ | ⟨i, -, e⟩⟩ <;>
    simp [e, h4, exec_fault_iff]

theorem step_fetchOutOfRange_iff {s : State} :
    step s = .fault .fetchOutOfRange ↔ s.pc.toNat % 4 = 0 ∧ 65536 ≤ s.pc.toNat := by
  rcases step_cases s with ⟨h4, e⟩ | ⟨h4, hr, e⟩ | ⟨⟨h4, hr⟩, ⟨-, e⟩ | ⟨-, -, e⟩ | ⟨i, -, e⟩⟩
  · simp [e, h4]
  · simp [e, h4, hr]
  · simp [e, hr]
  · simp [e, hr]
  · simp [e, hr, exec_fault_iff]

theorem step_illegalOpcode_iff {s : State} : step s = .fault .illegalOpcode ↔
    (s.pc.toNat % 4 = 0 ∧ s.pc.toNat < 65536) ∧
      (partition (s.mem.readWord s.pc.toNat)).opcode ∉ acceptedOpcodes := by
  rcases step_cases s with ⟨h4, e⟩ | ⟨h4, hr, e⟩ | ⟨hfetch, ⟨ho, e⟩ | ⟨ho, -, e⟩ | ⟨i, hi, e⟩⟩
  · simp [e, h4]
  · simp [e, hr]
  · simp [e, hfetch, ho]
  · simp [e, ho, acceptedOpcodes]
  · simp [e, exec_fault_iff, hi.opcode_mem]

theorem step_illegalFunct_iff {s : State} : step s = .fault .illegalFunct ↔
    (s.pc.toNat % 4 = 0 ∧ s.pc.toNat < 65536) ∧
      (partition (s.mem.readWord s.pc.toNat)).opcode = 0x00 ∧
      (partition (s.mem.readWord s.pc.toNat)).funct ∉ acceptedFuncts := by
  rcases step_cases s with ⟨h4, e⟩ | ⟨h4, hr, e⟩ | ⟨hfetch, ⟨ho, e⟩ | ⟨ho, hfn, e⟩ | ⟨i, hi, e⟩⟩
  · simp [e, h4]
  · simp [e, hr]
  · refine iff_of_false (by simp [e]) ?_
    rintro ⟨-, h0, -⟩
    exact ho (by rw [h0]; decide)
  · simp [e, hfetch, ho, hfn]
  · simp +contextual [e, exec_fault_iff, hi.funct_mem]

theorem step_badMemAccess_iff {s : State} : step s = .fault .badMemAccess ↔
    (s.pc.toNat % 4 = 0 ∧ s.pc.toNat < 65536) ∧
      ((partition (s.mem.readWord s.pc.toNat)).opcode = 0x23 ∨ (partition (s.mem.readWord s.pc.toNat)).opcode = 0x2B) ∧
      isAdmitted (s.effectiveAddr (partition (s.mem.readWord s.pc.toNat)).r1
        (partition (s.mem.readWord s.pc.toNat)).imm16) = false := by
  rcases step_cases s with ⟨h4, e⟩ | ⟨h4, hr, e⟩ | ⟨hfetch, ⟨ho, e⟩ | ⟨ho, -, e⟩ | ⟨i, hi, e⟩⟩
  · simp [e, h4]
  · simp [e, hr]
  · refine iff_of_false (by simp [e]) ?_
    rintro ⟨-, hload | hstore, -⟩
    · exact ho (by rw [hload]; decide)
    · exact ho (by rw [hstore]; decide)
  · simp [e, ho]
  · simp [e, hfetch, exec_fault_iff, dataAddress_of_decodes hi]

/-! ### What completed steps keep -/

theorem exec_keeps_pcAligned {i : Instr} {s t : State} (hs : s.pc.toNat % 4 = 0) (h : exec i s = .next t) :
    t.pc.toNat % 4 = 0 := by
  rcases exec_next_cases h with ⟨d, v, -, -, rfl⟩ | ⟨p, -, -, rfl, hp⟩ | ⟨r1, r2, imm16, -, -, rfl⟩
  · exact nextPc_mod4 hs
  · exact hp hs
  · exact nextPc_mod4 hs

theorem exec_keeps_inv {i : Instr} {s t : State} (hs : s.Inv) (h : exec i s = .next t) : t.Inv := by
  obtain ⟨hwf, hrange, hpc⟩ := hs
  have hpc' := exec_keeps_pcAligned hpc h
  rcases exec_next_cases h with ⟨d, v, -, -, rfl⟩ | ⟨p, -, -, rfl, -⟩ | ⟨r1, r2, imm16, -, ha, rfl⟩
  · exact ⟨hwf, hrange, hpc'⟩
  · exact ⟨hwf, hrange, hpc'⟩
  · exact ⟨Memory.writeWord_wf hwf _ _, Memory.writeWord_inRange hrange (admit_cell_inRange ha) _, hpc'⟩

theorem Reaches.keeps_pcAligned {s t : State} (hs : s.pc.toNat % 4 = 0) (h : Reaches s t) : t.pc.toNat % 4 = 0 := by
  induction h with
  | refl => exact hs
  | tail _ hstep ih =>
    obtain ⟨w, i, -, -, hexec⟩ := step_next_cases hstep
    exact exec_keeps_pcAligned ih hexec

theorem exec_keeps_other_registers {i : Instr} {s t : State} (h : exec i s = .next t) {r : RegIdx}
    (hr : destination i ≠ some r) : t.readReg r = s.readReg r := by
  rcases exec_next_cases h with ⟨d, v, hd, -, rfl⟩ | ⟨p, -, -, rfl, -⟩ | ⟨r1, r2, imm16, -, -, rfl⟩
  · exact s.writeReg_readReg_of_ne v fun hrd => hr (hrd ▸ hd)
  · rfl
  · rfl

theorem destination_eq_none_iff (i : Instr) : destination i = none ↔ i.mnemonic ∈ ["sw", "beq", "j"] := by
  cases i <;> simp [destination, Instr.mnemonic]

/-! ### The stages against the step -/

/-- What the stages up to the ALU produce for the fields of a word under a control row and a resolved operation. -/
def executed (s : State) (f : Fields) (c : ControlVector) (o : AluOp) : Executed where
  fields := f
  control := c
  data1 := s.readReg f.r1
  data2 := s.readReg f.r2
  ext := sext16 f.imm16
  alu := alu o (s.readReg f.r1) (selectOperand c.aluSrc (s.readReg f.r2) (sext16 f.imm16))

theorem executeStages_eq_executed {w : Word} {c : ControlVector} {o : AluOp} (s : State)
    (hc : decodeControl (partition w).opcode = .ok c) (hr : resolveOp c.aluOp (partition w).funct = .ok o) :
    executeStages s w = .ok (executed s (partition w) c o) := by
  simp only [executeStages, hc, hr, registerRead, executed]

/-- Memory Access decides whether the later stages commit: on its outputs they cannot fail. -/
theorem commitStages_of_next {s : State} {e : Executed} {ms : MemStage}
    (h : memoryAccess e.control.memRead e.control.memWrite e.alu.result e.data2 s.mem = .next ms) :
    commitStages s e = .next ((writeBack e.control.regWrite (writeBackDest e.control.regDst e.fields.r2 e.fields.r3)
      (writeBackValue e.control.memtoReg ms.memdata e.alu.result) (s.setMem ms.mem)).setPc
        (pcUpdate e.control.branch e.control.jump e.alu.zero s.pc e.fields.imm16 e.fields.target26)) := by
  simp only [commitStages, h]

theorem commitStages_of_fault {s : State} {e : Executed} {k : Fault}
    (h : memoryAccess e.control.memRead e.control.memWrite e.alu.result e.data2 s.mem = .fault k) :
    commitStages s e = .fault k := by
  simp only [commitStages, h, halt]

/-! ### The stages under each control row -/

theorem commitStages_rtype (s : State) (f : Fields) (o : AluOp) :
    commitStages s (executed s f rowRType o) = aluWrite o (s.readReg f.r1) (s.readReg f.r2) f.r3 s := rfl

theorem commitStages_immediate (s : State) (f : Fields) (o : AluOp) :
    commitStages s (executed s f (rowImmediate o) o) = aluWrite o (s.readReg f.r1) (sext16 f.imm16) f.r2 s := rfl

theorem commitStages_j (s : State) (f : Fields) :
    commitStages s (executed s f rowJ .add) = execJ f.target26 s := rfl

/-- The branch stage computes the next pc in one expression, execBeq in two arms. -/
theorem commitStages_beq (s : State) (f : Fields) :
    commitStages s (executed s f rowBeq .sub) = execBeq f.r1 f.r2 f.imm16 s := by
  have hstages : commitStages s (executed s f rowBeq .sub) =
      .next (s.setPc (pcUpdate true false (alu .sub (s.readReg f.r1) (s.readReg f.r2)).zero s.pc f.imm16 f.target26)) := rfl
  rw [hstages, execBeq_eq, pcUpdate_eq, alu_sub_zero]
  simp

theorem commitStages_lw (s : State) (f : Fields) :
    commitStages s (executed s f rowLw .add) = execLw f.r1 f.r2 f.imm16 s := by
  rcases execLw_cases f.r1 f.r2 f.imm16 s with ⟨ha, h⟩ | ⟨ha, h⟩ <;> rw [h]
  · exact commitStages_of_next (e := executed s f rowLw .add) (if_pos ha)
  · exact commitStages_of_fault (e := executed s f rowLw .add) (if_neg (Bool.not_eq_true _ ▸ ha))

theorem commitStages_sw (s : State) (f : Fields) :
    commitStages s (executed s f rowSw .add) = execSw f.r1 f.r2 f.imm16 s := by
  rcases execSw_cases f.r1 f.r2 f.imm16 s with ⟨ha, h⟩ | ⟨ha, h⟩ <;> rw [h]
  · exact commitStages_of_next (e := executed s f rowSw .add) (if_pos ha)
  · exact commitStages_of_fault (e := executed s f rowSw .add) (if_neg (Bool.not_eq_true _ ▸ ha))

/-- The stages carry out a decoded word as its instruction. -/
theorem stages_of_decodes {w : Word} {i : Instr} (h : Decodes (partition w) i) (s : State) :
    ∃ e, executeStages s w = .ok e ∧ commitStages s e = exec i s := by
  cases h with
  | add ho hf | sub ho hf | and ho hf | or ho hf | slt ho hf | sltu ho hf =>
    refine ⟨_, executeStages_eq_executed (c := rowRType) s (by rw [ho]; rfl) (by rw [hf]; rfl), ?_⟩
    exact commitStages_rtype ..
  | addi ho | slti ho | sltiu ho | lui ho =>
    refine ⟨_, executeStages_eq_executed s (by rw [ho]; rfl) rfl, ?_⟩
    exact commitStages_immediate ..
  | j ho => exact ⟨_, executeStages_eq_executed s (by rw [ho]; rfl) rfl, commitStages_j ..⟩
  | beq ho => exact ⟨_, executeStages_eq_executed s (by rw [ho]; rfl) rfl, commitStages_beq ..⟩
  | lw ho => exact ⟨_, executeStages_eq_executed s (by rw [ho]; rfl) rfl, commitStages_lw ..⟩
  | sw ho => exact ⟨_, executeStages_eq_executed s (by rw [ho]; rfl) rfl, commitStages_sw ..⟩

/-- The Control Decoder and the operation resolution stop on the words that the decoder calls illegal. -/
theorem executeStages_of_illegal {w : Word} {e : Illegal} (h : decodeWord w = .error e) (s : State) :
    executeStages s w = .error (illegalFault e) := by
  rcases decodeFields_cases (partition w) with ⟨i, -, hd⟩ | ⟨ho, hfn, hd⟩ | ⟨ho, hd⟩ <;> cases h.symm.trans hd
  · exact executeStages_of_resolve_error (c := rowRType) s (by rw [ho]; rfl) (functOp_of_notMem hfn)
  · exact executeStages_of_control_error s (decodeControl_of_notMem ho)

theorem datapathStep_eq_step (s : State) : datapathStep s = step s := by
  cases hf : s.fetch with
  | error k => simp only [datapathStep, hf, step_of_fetch_error hf, halt]
  | ok w =>
    cases hd : decodeWord w with
    | error e => simp only [datapathStep, hf, step_of_illegal hf hd, executeStages_of_illegal hd, halt]
    | ok i =>
      obtain ⟨e, he, hcommit⟩ := stages_of_decodes (decodeWord_eq_ok_iff.mp hd) s
      simp only [datapathStep, hf, step_of_decodeWord hf hd, he, hcommit]

/-! ### The block's outputs -/

/-- A completed step is Memory Access's outputs committed. -/
theorem step_next_stages {s t : State} (h : step s = .next t) :
    ∃ w e ms, s.fetch = .ok w ∧ executeStages s w = .ok e ∧
      memoryAccess e.control.memRead e.control.memWrite e.alu.result e.data2 s.mem = .next ms ∧
      commitStages s e = .next t := by
  rw [← datapathStep_eq_step, datapathStep] at h
  cases hf : s.fetch with
  | error k => simp [hf, halt] at h
  | ok w =>
    cases he : executeStages s w with
    | error k => simp [hf, he, halt] at h
    | ok e =>
      simp only [hf, he] at h
      cases hm : memoryAccess e.control.memRead e.control.memWrite e.alu.result e.data2 s.mem with
      | next ms => exact ⟨w, e, ms, rfl, he, hm, h⟩
      | fault k => simp [commitStages, hm, halt] at h
      | refused r => simp [commitStages, hm] at h

/-- In a halting step the block shows the halt, whichever stage raised it. -/
theorem boundary_of_fault {s : State} {k : Fault} (h : step s = .fault k) :
    ∃ instrRead regRead, boundary s = haltedBoundary k instrRead regRead := by
  rw [← datapathStep_eq_step, datapathStep] at h
  cases hf : s.fetch with
  | error k' =>
    simp only [hf, halt, Host.Outcome.fault.injEq] at h
    exact ⟨_, _, by rw [← h, boundary, hf]⟩
  | ok w =>
    cases he : executeStages s w with
    | error k' =>
      simp only [hf, he, halt, Host.Outcome.fault.injEq] at h
      exact ⟨some (portIndex s.pc), regReadPorts w, by simp only [← h, boundary, hf, he]⟩
    | ok e =>
      simp only [hf, he] at h
      cases hm : memoryAccess e.control.memRead e.control.memWrite e.alu.result e.data2 s.mem with
      | next ms => simp [commitStages, hm] at h
      | refused r => simp [commitStages, hm] at h
      | fault k' =>
        simp only [commitStages, hm, halt, Host.Outcome.fault.injEq] at h
        exact ⟨some (portIndex s.pc), regReadPorts w, by simp only [← h, boundary, hf, he, commitBoundary, hm]⟩

/-- The 14 bits of the port hold the whole word index of an admitted address. -/
theorem portIndex_of_admitted {a : Word} (h : isAdmitted a = true) : (portIndex a).toNat = wordIndex a := by
  obtain ⟨-, hlt⟩ := (admit_iff a).mp h
  rw [portIndex, BitVec.extractLsb'_toNat, Nat.shiftRight_eq_div_pow, wordIndex]
  omega

/-- What a completed Memory Access does to memory: a write of the cell on its port, or nothing. -/
theorem memoryAccess_next_mem {memRead memWrite : Bool} {addr data2 : Word} {m : Memory} {ms : MemStage}
    (h : memoryAccess memRead memWrite addr data2 m = .next ms) :
    ms.mem = if memWrite then m.writeWord (4 * (portIndex addr).toNat) data2 else m := by
  cases memRead <;> cases memWrite
  · cases h; rfl
  · by_cases ha : isAdmitted addr = true
    · simp only [memoryAccess, if_pos ha, Host.Outcome.next.injEq] at h
      rw [← h, portIndex_of_admitted ha]; rfl
    · simp [memoryAccess, ha, halt] at h
  · by_cases ha : isAdmitted addr = true
    · simp only [memoryAccess, if_pos ha, Host.Outcome.next.injEq] at h
      rw [← h]; rfl
    · simp [memoryAccess, ha, halt] at h
  · cases h

/-! ### Placed and stored words -/

theorem State.fetch_of_pc {s : State} (h4 : s.pc.toNat % 4 = 0) (hr : s.pc.toNat < 65536) :
    s.fetch = .ok (s.mem.readWord s.pc.toNat) := by
  rcases s.fetch_cases with ⟨h, -⟩ | ⟨-, h, -⟩ | ⟨-, -, e⟩
  · exact absurd h4 h
  · exact absurd hr (Nat.not_lt.mpr h)
  · exact e

theorem fetchable_iff (p : Word) : (aligned p && decide (wordIndex p < config.memWords)) = true ↔
    p.toNat % 4 = 0 ∧ p.toNat < 65536 := by
  rw [Bool.and_eq_true, aligned_iff, decide_eq_true_eq, config_memWords, wordIndex]
  omega

/-- Placing a word keeps a pc that could be fetched from, and sets any other to 0 (log 17). -/
theorem State.withFetchWord_pc (s : State) (nbits w : Nat) :
    (s.withFetchWord nbits w).pc = if s.pc.toNat % 4 = 0 ∧ s.pc.toNat < 65536 then s.pc else 0 := by
  simp only [State.withFetchWord, fetchable_iff]
  split <;> rfl

theorem State.withFetchWord_regs (s : State) (nbits w : Nat) : (s.withFetchWord nbits w).regs = s.regs := by
  simp only [State.withFetchWord]
  split <;> rfl

theorem State.withFetchWord_mem (s : State) (nbits w : Nat) :
    (s.withFetchWord nbits w).mem =
      s.mem.writeWord (4 * wordIndex (s.withFetchWord nbits w).pc) (tableWord nbits w) := by
  simp only [State.withFetchWord]
  split <;> rfl

theorem State.withFetchWord_fetch {s : State} (hm : s.mem.wf) (nbits w : Nat) :
    (s.withFetchWord nbits w).fetch = .ok (tableWord nbits w) := by
  have hpc : (s.withFetchWord nbits w).pc.toNat % 4 = 0 ∧ (s.withFetchWord nbits w).pc.toNat < 65536 := by
    rw [s.withFetchWord_pc]
    split
    · assumption
    · decide
  rw [State.fetch_of_pc hpc.1 hpc.2, s.withFetchWord_mem, four_mul_wordIndex hpc.1, Memory.readWord_writeWord_self hm]

theorem decodeWord_of_decodeTableWord {nbits w : Nat} {i : Instr} (h : decodeTableWord nbits w = some i) :
    decodeWord (tableWord nbits w) = .ok i := by
  rw [decodeTableWord, decode_bytesOfWord] at h
  cases hd : decodeWord (tableWord nbits w) with
  | error e => simp [hd] at h
  | ok i' => simp_all

theorem decodeWord_of_decode {b0 b1 b2 b3 : Byte} {i : Instr} {rest : List Byte}
    (h : decode [b0, b1, b2, b3] = .ok (i, rest)) : decodeWord (wordOfBytes b0 b1 b2 b3) = .ok i := by
  rw [decode] at h
  cases hd : decodeWord (wordOfBytes b0 b1 b2 b3) with
  | error e => simp [hd] at h
  | ok i' => simp_all

/-- A completed store, with its cell at the effective address itself. -/
theorem exec_sw_next {r1 r2 : RegIdx} {imm16 : Imm16} {s t : State} (h : exec (.sw r1 r2 imm16) s = .next t) :
    isAdmitted (s.effectiveAddr r1 imm16) = true ∧
    t = (s.setMem (s.mem.writeWord (s.effectiveAddr r1 imm16).toNat (s.readReg r2))).advance := by
  rcases execSw_cases r1 r2 imm16 s with ⟨ha, e⟩ | ⟨-, e⟩ <;> rw [exec, e] at h <;> cases h
  exact ⟨ha, by rw [four_mul_wordIndex ((admit_iff _).mp ha).1]⟩

/-- An admitted load completes, with its cell at the effective address itself. -/
theorem exec_lw_of_admitted {r1 r2 : RegIdx} {imm16 : Imm16} {s : State}
    (h : isAdmitted (s.effectiveAddr r1 imm16) = true) : exec (.lw r1 r2 imm16) s =
      .next (s.writeReg r2 (s.mem.readWord (s.effectiveAddr r1 imm16).toNat)).advance := by
  simp only [exec, execLw, s.load_of_admitted h]

/-- A fetch looks at the cell of its own pc alone. -/
theorem State.fetch_setMem_writeWord_of_ne (s : State) (m : Memory) {a : Word} (v : Word) (ha : a.toNat % 4 = 0)
    (h : s.pc ≠ a) : (s.setMem (m.writeWord a.toNat v)).fetch = (s.setMem m).fetch := by
  have hne : s.pc.toNat ≠ a.toNat := fun e => h (BitVec.eq_of_toNat_eq e)
  simp only [State.fetch, State.setMem_pc, State.setMem_mem, Bool.not_eq_true', ← Bool.not_eq_true, aligned_iff]
  split
  · rfl
  · next h4 =>
    rw [four_mul_wordIndex (not_not.mp h4), Memory.readWord_writeWord_of_ne m v (by omega)]
    rfl

/-! ### Runs -/

theorem Reaches.head {s t u : State} (h : step s = .next t) (htu : Reaches t u) : Reaches s u := by
  induction htu with
  | refl => exact .tail (.refl s) h
  | tail _ hstep ih => exact .tail ih hstep

/-- What a run that ended says: its final state is reached, that state's own step halts, and fuel was left. -/
theorem run_halted {n : Nat} {s : State} {k : Fault} (h : (run n s).halted = some k) :
    step (run n s).final = .fault k ∧ Reaches s (run n s).final ∧ (run n s).completed < n := by
  induction n generalizing s with
  | zero => cases h
  | succ n ih =>
    cases hstep : step s with
    | next t =>
      rw [run_succ_next n hstep] at h ⊢
      obtain ⟨hfinal, hreach, hlt⟩ := ih h
      exact ⟨hfinal, hreach.head hstep, Nat.succ_lt_succ hlt⟩
    | fault k' =>
      rw [run_succ_fault n hstep] at h ⊢
      cases h
      exact ⟨hstep, .refl s, Nat.succ_pos n⟩
    | refused r => exact absurd hstep (step_ne_refused s r)

/-- A run that ended is not changed by more fuel. -/
theorem run_add_of_halted {n : Nat} {s : State} {k : Fault} (h : (run n s).halted = some k) (m : Nat) :
    run (n + m) s = run n s := by
  induction n generalizing s with
  | zero => cases h
  | succ n ih =>
    rw [Nat.succ_add]
    cases hstep : step s with
    | next t =>
      rw [run_succ_next n hstep] at h
      rw [run_succ_next n hstep, run_succ_next (n + m) hstep, ih h]
    | fault k' => rw [run_succ_fault n hstep, run_succ_fault (n + m) hstep]
    | refused r => exact absurd hstep (step_ne_refused s r)

theorem safeFor_iff (n : Nat) (s : State) : SafeFor n s ↔ (run n s).halted = none := by
  induction n generalizing s with
  | zero => exact iff_of_true rfl rfl
  | succ n ih =>
    cases hstep : step s with
    | next t =>
      rw [SafeFor, run_succ_next n hstep]
      exact Nat.succ_inj.trans (ih t)
    | fault k =>
      rw [SafeFor, run_succ_fault n hstep]
      exact iff_of_false (Nat.succ_ne_zero n).symm nofun
    | refused r => exact absurd hstep (step_ne_refused s r)

/-! ### The reduced AND -/

theorem ne_zero_of_and_ne_zero {a b : Word} (h : a &&& b ≠ 0) : a ≠ 0 ∧ b ≠ 0 :=
  ⟨fun ha => h (by rw [ha]; exact BitVec.zero_and), fun hb => h (by rw [hb]; exact BitVec.and_zero)⟩

/-- Both readings give 1 on a common set bit (40_alu.md R76). -/
theorem andReduced_of_common_bit (reading : AndReduction) {a b : Word} (h : a &&& b ≠ 0) : andReduced reading a b = 1 :=
  if_pos h

/-- Both readings give 0 on a zero operand (R76). -/
theorem andReduced_of_zero (reading : AndReduction) {a b : Word} (h : a = 0 ∨ b = 0) : andReduced reading a b = 0 := by
  have hand : ¬ a &&& b ≠ 0 := fun hne => h.elim (ne_zero_of_and_ne_zero hne).1 (ne_zero_of_and_ne_zero hne).2
  exact (if_neg hand).trans (if_pos h)

theorem andReduced_eq_zero_or_one (reading : AndReduction) (a b : Word) :
    andReduced reading a b = 0 ∨ andReduced reading a b = 1 := by
  unfold andReduced
  split
  · exact .inr rfl
  · split
    · exact .inl rfl
    · cases reading
      · exact .inl rfl
      · exact .inr rfl

theorem andReduced_bitwiseThenNonzero (a b : Word) :
    andReduced .bitwiseThenNonzero a b = if a &&& b ≠ 0 then 1 else 0 := by
  simp only [andReduced, ite_self]

theorem andReduced_logical (a b : Word) : andReduced .logical a b = if a ≠ 0 ∧ b ≠ 0 then 1 else 0 := by
  by_cases hand : a &&& b ≠ 0
  · rw [andReduced_of_common_bit _ hand, if_pos (ne_zero_of_and_ne_zero hand)]
  · have hdual : a = 0 ∨ b = 0 ↔ ¬ (a ≠ 0 ∧ b ≠ 0) := by rw [not_and_or, not_not, not_not]
    exact (if_neg hand).trans ((if_congr hdual rfl rfl).trans (ite_not ..))

/-- Where the two readings part (R76). -/
theorem andReduced_readings_ne_iff (a b : Word) :
    andReduced .bitwiseThenNonzero a b ≠ andReduced .logical a b ↔ a ≠ 0 ∧ b ≠ 0 ∧ a &&& b = 0 := by
  by_cases hand : a &&& b ≠ 0
  · rw [andReduced_of_common_bit _ hand, andReduced_of_common_bit _ hand]
    exact iff_of_false (not_not.mpr rfl) fun ⟨_, _, h⟩ => hand h
  · rw [andReduced_bitwiseThenNonzero, if_neg hand, andReduced_logical]
    by_cases hab : a ≠ 0 ∧ b ≠ 0
    · rw [if_pos hab]
      exact iff_of_true (by decide) ⟨hab.1, hab.2, not_not.mp hand⟩
    · rw [if_neg hab]
      exact iff_of_false (not_not.mpr rfl) fun ⟨ha, hb, _⟩ => hab ⟨ha, hb⟩

/-! ### Selectors and control rows -/

theorem aluSelect_of_undefined : ∀ sel : BitVec 4, 8 ≤ sel.toNat → aluSelect sel = none := by decide

theorem aluSelect_code (op : AluOp) : aluSelect op.code = some op := by cases op <;> rfl

theorem AluOp.code_lt (op : AluOp) : op.code.toNat < 8 := by cases op <;> decide

theorem opcode_of_rtype_row {opcode : Opcode} {c : ControlVector} (h : decodeControl opcode = .ok c)
    (hc : c.aluOp = .rtype) : opcode = 0x00 := by
  have accepted : ∀ op ∈ acceptedOpcodes, ∀ row, decodeControl op = .ok row → row.aluOp = .rtype → op = 0x00 := by
    simp [acceptedOpcodes, decodeControl, rowJ, rowBeq, rowImmediate, rowLw, rowSw]
  by_cases hm : opcode ∈ acceptedOpcodes
  · exact accepted opcode hm c h hc
  · exact nomatch h.symm.trans (decodeControl_of_notMem hm)

/-! ### Memory Access and Write-Back as components -/

theorem memoryAccess_of_not_admitted {addr : Word} (h : isAdmitted addr = false) (data2 : Word) (m : Memory) :
    memoryAccess true false addr data2 m = .fault .badMemAccess ∧
    memoryAccess false true addr data2 m = .fault .badMemAccess := by
  simp [memoryAccess, h, halt]

theorem writeBackDest_eq (regDst : RegDst) (r2 r3 : RegIdx) :
    writeBackDest regDst r2 r3 = if regDst = .rd then r3 else r2 := by
  cases regDst <;> rfl

theorem writeBackValue_eq (memtoReg : MemtoReg) (memdata aluResult : Word) :
    writeBackValue memtoReg memdata aluResult = if memtoReg = .memory then memdata else aluResult := by
  cases memtoReg <;> rfl

/-! ### The signed immediate in arithmetic -/

theorem sext16_eq_ofInt (imm16 : Imm16) : sext16 imm16 = BitVec.ofInt 32 imm16.toInt := rfl

theorem sext16_toInt_eq (imm16 : Imm16) : (sext16 imm16).toInt = imm16.toInt :=
  BitVec.toInt_signExtend_of_le (by decide)

theorem add_sext16 (a : Word) (imm16 : Imm16) : a + sext16 imm16 = BitVec.ofInt 32 (a.toInt + imm16.toInt) := by
  rw [BitVec.ofInt_add, BitVec.ofInt_toInt, sext16_eq_ofInt]

theorem sext16_toNat_mod (imm16 : Imm16) : (sext16 imm16).toNat % 2 ^ 16 = imm16.toNat := by
  have := imm16.isLt
  rw [sext16_toNat]
  split <;> omega

/-- The branch target (41_datapath.md R117) as a wrapped sum of integers. -/
theorem branchTarget_nextPc (pc : Word) (imm16 : Imm16) :
    branchTarget (nextPc pc) imm16 = BitVec.ofInt 32 ((pc.toNat : Int) + 4 + 4 * imm16.toInt) := by
  have hpc : BitVec.ofInt 32 (pc.toNat : Int) = pc := by rw [BitVec.ofInt_natCast, BitVec.ofNat_toNat, BitVec.setWidth_eq]
  have hshift : sext16 imm16 <<< 2 = BitVec.ofInt 32 4 * BitVec.ofInt 32 imm16.toInt := by
    rw [BitVec.shiftLeft_eq_mul_twoPow, BitVec.mul_comm, sext16_eq_ofInt]; rfl
  rw [BitVec.ofInt_add, BitVec.ofInt_add, BitVec.ofInt_mul, hpc, branchTarget, nextPc, hshift]
  rfl

/-! ### Loads, stores and jumps -/

theorem exec_sw_of_admitted {r1 r2 : RegIdx} {imm16 : Imm16} {s : State}
    (h : isAdmitted (s.effectiveAddr r1 imm16) = true) : exec (.sw r1 r2 imm16) s =
      .next (s.setMem (s.mem.writeWord (s.effectiveAddr r1 imm16).toNat (s.readReg r2))).advance := by
  rcases execSw_cases r1 r2 imm16 s with ⟨-, e⟩ | ⟨hn, -⟩
  · rw [exec, e, four_mul_wordIndex ((admit_iff _).mp h).1]
  · exact nomatch h.symm.trans hn

theorem setPc_jumpsOnly (s : State) (p : Word) : JumpsOnly s (s.setPc p) p where
  registers _ := rfl
  memory _ := rfl
  pc := rfl

/-! ### The halt codes -/

theorem Fault.code_inj (k l : Fault) : k.code = l.code → k = l := by
  cases k <;> cases l <;> decide

theorem Fault.code_ne_zero (k : Fault) : k.code ≠ 0 := by
  cases k <;> decide

/-! ### Reset and launch -/

theorem launch_inv (x : Vector Word 32) {m : Memory} {p : Word} (hwf : m.wf) (hrange : m.inRange)
    (hp : p.toNat % 4 = 0) : (State.launch x m p).Inv := ⟨hwf, hrange, hp⟩

theorem reset_inv : State.reset.Inv := launch_inv (Vector.replicate 32 0) Memory.reset_wf nofun rfl

/-! ### The obligations -/

/-- Settles O4: a word's bytes decode as the word does, and the encoder writes the fields that the decoder reads. -/
theorem decodeOfEncodeIsTheInstruction : Obligations.DecodeOfEncodeIsTheInstruction := by
  refine fun i => ⟨decodeWord_encode i, fun rest => ?_⟩
  simp only [bytesOfWord, List.cons_append, List.nil_append, decode, wordOfBytes_byteOfWord, decodeWord_encode]

/-- Settles O5: in each row the fields that the instruction keeps rebuild the word but for its ignored bits. -/
theorem encodeOfDecodeClearsIgnoredBits : Obligations.EncodeOfDecodeClearsIgnoredBits := fun _ _ h =>
  encode_of_decodes (decodeWord_eq_ok_iff.mp h)

/-- Settles O6: with the ignored bits cleared both words are the instruction's encoding. -/
theorem ignoredBitsDoNotMatter : Obligations.IgnoredBitsDoNotMatter := by
  intro w v i hw hused
  apply decodeWord_of_and_usedBits
  rw [← hused, ← encode_of_decodes (decodeWord_eq_ok_iff.mp hw), decodeWord_encode]

/-- Settles O7: a word has one decoding, and no two rows have the same mnemonic. -/
theorem tableRowsSelectTheirInstruction : Obligations.TableRowsSelectTheirInstruction := by
  refine ⟨fun w row hrow => ⟨decodeWord_of_tableRow hrow, fun ⟨i, hd, hi⟩ => tableRow_of_decodeWord hrow hd hi⟩,
    fun w row hrow other hother hw hw' => ?_⟩
  obtain ⟨i, hd, hi⟩ := decodeWord_of_tableRow hrow hw
  obtain ⟨i', hd', hi'⟩ := decodeWord_of_tableRow hother hw'
  cases hd.symm.trans hd'
  exact tableRow_eq_of_mnemonic hrow hother (hi.symm.trans hi')

/-- Settles O8: the spelling is well formed and keeps each operand's value; an immediate and the immediate plus 2^16 have
the same sixteen bits. -/
theorem spellingAssemblesBack : Obligations.SpellingAssemblesBack := by
  refine ⟨assemble_toAsm, fun op t s v hlow hneg => ?_⟩
  have hwf : (AsmInstr.itype op t s v).wellFormed = (AsmInstr.itype op t s (v + 65536)).wellFormed := by
    simp only [AsmInstr.wellFormed, immOk_add_65536 hlow hneg]
  have hinstr : (AsmInstr.itype op t s v).toInstr = (AsmInstr.itype op t s (v + 65536)).toInstr := by
    simp only [AsmInstr.toInstr, ofInt_add_65536]
  rw [AsmInstr.assemble, AsmInstr.assemble, hwf, hinstr]

/-- Settles O46: an execution writes a register, the pc or one admitted cell, and each keeps the invariant. -/
theorem invariantKeptByEveryStep : Obligations.InvariantKeptByEveryStep := by
  intro s t hs h
  obtain ⟨w, i, -, -, hexec⟩ := step_next_cases h
  exact exec_keeps_inv hs hexec

/-- Settles O47: completed steps keep the alignment, and only a misaligned pc misfetches. -/
theorem alignedRunsNeverMisfetch : Obligations.AlignedRunsNeverMisfetch := by
  intro s t hs h
  have ht := h.keeps_pcAligned hs
  exact ⟨ht, fun hmis => step_misalignedFetch_iff.mp hmis ht⟩

/-- Settles O48: an execution writes no register but its destination. -/
theorem onlyTheDestinationRegisterChanges : Obligations.OnlyTheDestinationRegisterChanges :=
  ⟨fun _ _ _ h _ hr => exec_keeps_other_registers h hr, destination_eq_none_iff⟩

/-- Settles O51: an execution stops exactly at a data address that is not admitted. -/
theorem onlyLoadAndStoreHalt : Obligations.OnlyLoadAndStoreHalt := by
  intro i s k
  simp only [exec_fault_iff, admit_false_iff]

/-- Settles O52: a step halts or is an execution, and an execution completes or halts. -/
theorem nothingIsRefused : Obligations.NothingIsRefused := ⟨exec_ne_refused, step_ne_refused⟩

/-- Settles O53: each halt belongs to one stage, which the later stages are reached only past. -/
theorem haltsInStageOrder : Obligations.HaltsInStageOrder := by
  intro s w op fetched addr
  refine ⟨step_misalignedFetch_iff, step_fetchOutOfRange_iff, ?illegalOpcode, ?illegalFunct, ?badMemAccess⟩
  case illegalOpcode => exact step_illegalOpcode_iff.trans (and_congr_right' (not_congr partition_opcode_mem_iff))
  case illegalFunct =>
    exact step_illegalFunct_iff.trans
      (and_congr_right' (and_congr (partition_opcode_eq_iff 0x00) (not_congr partition_funct_mem_iff)))
  case badMemAccess =>
    have haddr : s.effectiveAddr (partition w).r1 (partition w).imm16 = addr := by rw [partition_eq]
    refine step_badMemAccess_iff.trans (and_congr_right' (and_congr ?_ ?_))
    · exact or_congr (partition_opcode_eq_iff 0x23) (partition_opcode_eq_iff 0x2B)
    · rw [← haddr]; exact admit_false_iff

/-- Settles O54: four bytes that decode are the word that the fetch gives. -/
theorem stepRunsTheDecodedInstruction : Obligations.StepRunsTheDecodedInstruction := fun _ _ h4 hr hd =>
  step_of_decodeWord (State.fetch_of_pc h4 hr) (decodeWord_of_decode hd)

/-- Settles O55: the placed word is what the next fetch gives, at the pc or at 0. -/
theorem placedWordRunsNext : Obligations.PlacedWordRunsNext := by
  refine fun s nbits w i hm h => ⟨?_, s.withFetchWord_regs nbits w, fun h4 hr => ?_⟩
  · exact step_of_decodeWord (State.withFetchWord_fetch hm nbits w) (decodeWord_of_decodeTableWord h)
  · rw [s.withFetchWord_pc, if_pos ⟨h4, hr⟩]

/-- Settles O56: the store keeps the registers, so the load has the same address and is admitted too. -/
theorem loadAfterStore : Obligations.LoadAfterStore := by
  intro s t r1 r2 r3 imm16 hm h
  obtain ⟨ha, rfl⟩ := exec_sw_next h
  refine ⟨_, exec_lw_of_admitted ha, ?_⟩
  rw [State.advance_readReg, State.writeReg_readReg_self]
  exact Memory.readWord_writeWord_self hm _ _

/-- Settles O57: a fetch reads one aligned cell, the stored one or a disjoint one. -/
theorem storeIsSeenByFetch : Obligations.StoreIsSeenByFetch := by
  intro s t u r1 r2 imm16 hm h hmem
  obtain ⟨ha, rfl⟩ := exec_sw_next h
  obtain ⟨h4, hlt⟩ := (admit_iff _).mp ha
  rw [State.advance_mem, State.setMem_mem] at hmem
  refine ⟨fun hpc => ?_, fun hpc => ?_⟩
  · rw [State.fetch_of_pc (by rw [hpc]; exact h4) (by rw [hpc]; omega), hmem, hpc]
    exact congrArg _ (Memory.readWord_writeWord_self hm _ _)
  · rw [← u.fetch_setMem_writeWord_of_ne s.mem (s.readReg r2) h4 hpc, ← hmem, State.setMem_self]

/-- Settles O58: a run recurses on the first step, which completes and leaves the rest of the run, or halts and ends it. -/
theorem runEndsAtTheFirstHalt : Obligations.RunEndsAtTheFirstHalt := by
  refine ⟨fun n s k h => ?_, safeFor_iff⟩
  obtain ⟨hfinal, hreach, hlt⟩ := run_halted h
  exact ⟨hfinal, hreach, hlt, run_add_of_halted h⟩

/-- Settles O28: after the fetch the stages carry out each row of the opcode table as its instruction, and stop on the
words that the decoder calls illegal. -/
theorem datapathAgreesWithStep : Obligations.DatapathAgreesWithStep := datapathStep_eq_step

/-- Settles O60: the ports show Memory Access and Write-Back as the step commits them, or the halt and no write. -/
theorem boundaryShowsTheStep : Obligations.BoundaryShowsTheStep := by
  refine fun s => ⟨fun t h => ?completed, fun k h => ?halted⟩
  case completed =>
    obtain ⟨w, e, ms, hf, he, hm, hcommit⟩ := step_next_stages h
    have hmem := memoryAccess_next_mem hm
    rw [commitStages_of_next hm, Host.Outcome.next.injEq] at hcommit
    subst hcommit
    simp only [boundary, hf, he, commitBoundary, hm, true_and]
    refine ⟨fun r => ?_, ?_⟩
    · cases e.control.regWrite
      · rfl
      · simp [writeBack, eq_comm]
    · cases e.control.regWrite <;> cases hw : e.control.memWrite <;> simp [writeBack, hmem, hw]
  case halted =>
    obtain ⟨instrRead, regRead, e⟩ := boundary_of_fault h
    rw [e]
    exact ⟨rfl, rfl, rfl, rfl⟩

/-- Settles O1: the decoder evaluates on each word. -/
theorem writtenOutWordsDecode : Obligations.WrittenOutWordsDecode :=
  ⟨rfl, rfl, rfl, rfl, rfl, rfl, rfl, rfl, rfl, rfl, rfl, rfl, rfl, rfl, rfl, rfl, rfl, rfl⟩

/-- Settles O13: what the two readings share holds of the hardware's, which is one of them. -/
theorem aluAndIsReduced : Obligations.AluAndIsReduced :=
  ⟨andReduced_bitwiseThenNonzero, andReduced_logical, andReduced_readings_ne_iff, fun a b =>
    ⟨andReduced_eq_zero_or_one _ a b, andReduced_of_common_bit _, andReduced_of_zero _⟩⟩

/-- Settles O17: no operation has a selector from 8, and each operation's own selector selects it. -/
theorem undefinedSelectorYieldsZero : Obligations.UndefinedSelectorYieldsZero := by
  refine ⟨fun sel a b h => ?_, fun op a b => ⟨op.code_lt, ?_⟩⟩
  · rw [aluBySelector, aluSelect_of_undefined sel h]
    exact ⟨rfl, rfl⟩
  · rw [aluBySelector, aluSelect_code]

/-- Settles O20: the signals of each row, read off. -/
theorem controlRows_signals : Obligations.ControlRows :=
  ⟨⟨rowLw, rfl, by decide⟩, ⟨rowRType, rfl, by decide⟩, ⟨rowJ, rfl, by decide⟩, ⟨rowBeq, rfl, by decide⟩,
    by simp [decodeControl, rowImmediate], ⟨rowSw, rfl, by decide⟩⟩

/-- Settles O21: the properties hold in each of the nine rows, and only opcode 0x00 has the sentinel's row. -/
theorem controlTableProperties : Obligations.ControlTableProperties := by
  intro opcode c h
  have rows : ∀ row ∈ controlRows, ¬ (row.memRead = true ∧ row.memWrite = true) ∧
      (row.regWrite = true → row.regDst ≠ .dontCare ∧ row.memtoReg ≠ .dontCare) ∧
      (row.memtoReg = .memory → row.memRead = true) ∧ row.aluOp ≠ .op .not := by decide
  obtain ⟨hmem, hwrite, hread, hnot⟩ := rows c (decodeControl_mem_controlRows h)
  exact ⟨hmem, decodeControl_branch_jump_exclusive h, hwrite, hread, opcode_of_rtype_row h, hnot⟩

/-- Settles O25: the component's own test stops both accesses. -/
theorem memoryAccessGate : Obligations.MemoryAccessGate := fun _ data2 m =>
  ⟨fun h => memoryAccess_of_not_admitted (admit_false_iff.mpr h) data2 m, rfl⟩

/-- Settles O26: Write-Back is a register write of the selected value, and a register write has its own frame. -/
theorem writeBackStores : Obligations.WriteBackStores := by
  refine ⟨fun _ _ _ => rfl, fun regDst memtoReg r2 r3 memdata aluResult s => ?_⟩
  rw [writeBackDest_eq, writeBackValue_eq]
  exact ⟨s.writeReg_readReg_self _ _, fun _ h => s.writeReg_readReg_of_ne _ h, rfl, rfl⟩

/-- Settles O31: the reduced AND of the hardware's reading is written whatever the registers hold. -/
theorem andWritesReducedAnd : Obligations.AndWritesReducedAnd := by
  intro s r1 r2 r3
  obtain ⟨t, hexec, hwrites⟩ := aluWrite_writesOnly s r3 (op := .and) (a := s.readReg r1) (b := s.readReg r2) rfl
  exact ⟨t, _, hexec, hwrites, andReduced_eq_zero_or_one _ _ _, andReduced_of_common_bit _, andReduced_of_zero _, rfl⟩

/-- Settles O35: the sum with the extended immediate is the integers' sum, wrapped. -/
theorem addiWritesWrappedSum : Obligations.AddiWritesWrappedSum := fun s _ r2 imm16 =>
  aluWrite_writesOnly s r2 (add_sext16 _ imm16)

/-- Settles O36: the extended immediate has the immediate's signed value. -/
theorem sltiWritesSignedComparison : Obligations.SltiWritesSignedComparison := fun s r1 r2 imm16 =>
  aluWrite_writesOnly s r2 ((aluResult_slt (s.readReg r1) (sext16 imm16)).trans (by rw [sext16_toInt_eq]))

/-- Settles O37: the comparison is with the extended immediate as an unsigned number. -/
theorem sltiuWritesUnsignedComparison : Obligations.SltiuWritesUnsignedComparison := fun s r1 r2 imm16 =>
  aluWrite_writesOnly s r2 ((aluResult_sltu (s.readReg r1) (sext16 imm16)).trans (by rw [sext16_toNat]))

/-- Settles O38: the shift loses every bit that the sign extension adds. -/
theorem luiWritesUpperHalf : Obligations.LuiWritesUpperHalf := by
  intro s r2 imm16
  obtain ⟨t, hexec, hwrites⟩ := aluWrite_writesOnly s r2 (op := .shiftLeft16) (a := 0) (b := sext16 imm16) rfl
  exact ⟨t, _, hexec, hwrites, by rw [aluResult_shiftLeft16_toNat, sext16_toNat_mod]⟩

/-- Settles O39: at an admitted address both complete, on the cell that begins at the address itself. -/
theorem loadAndStoreComplete : Obligations.LoadAndStoreComplete := by
  refine fun s r1 r2 imm16 => ⟨add_sext16 _ imm16, fun h4 hlt => ?_⟩
  have ha := (admit_iff (s.effectiveAddr r1 imm16)).mpr ⟨h4, hlt⟩
  refine ⟨⟨_, exec_lw_of_admitted ha, writeReg_advance_writesOnly s r2 _⟩, _, exec_sw_of_admitted ha, fun _ => rfl, rfl, ?_⟩
  exact ⟨fun hm => Memory.readWord_writeWord_self hm _ _, fun _ h => Memory.readByte_writeWord_of_ne s.mem _ h⟩

/-- Settles O40: the address is the data address of both, and it is not admitted. -/
theorem loadAndStoreHaltElsewhere : Obligations.LoadAndStoreHaltElsewhere := by
  intro s r1 r2 imm16 h
  have ha : isAdmitted (s.effectiveAddr r1 imm16) = false := admit_false_iff.mpr (by omega)
  exact ⟨exec_fault_iff.mpr ⟨rfl, _, rfl, ha⟩, exec_fault_iff.mpr ⟨rfl, _, rfl, ha⟩⟩

/-- Settles O41: the branch changes the pc alone, to its target or to pc + 4. -/
theorem beqBranchesOnEquality : Obligations.BeqBranchesOnEquality := by
  intro s r1 r2 imm16
  refine ⟨_, execBeq_eq r1 r2 imm16 s, ?_⟩
  rw [branchTarget_nextPc]
  exact setPc_jumpsOnly s _

/-- Settles O42: the jump changes the pc alone, to its target. -/
theorem jumpReplacesThePc : Obligations.JumpReplacesThePc := fun s target26 =>
  ⟨_, _, rfl, setPc_jumpsOnly s _, jumpTarget_toNat (nextPc s.pc) target26⟩

/-- Settles O43: the register write and the two instructions treat register 0 as any other. -/
theorem registerZeroIsOrdinary : Obligations.RegisterZeroIsOrdinary := by
  refine ⟨fun s v => s.writeReg_readReg_self 0 v, fun s r1 r2 => ?_, fun s r2 => ?_⟩
  · obtain ⟨t, hexec, hwrites⟩ := aluWrite_writesOnly s 0 (op := .add) (a := s.readReg r1) (b := s.readReg r2) rfl
    exact ⟨t, hexec, hwrites.value⟩
  · obtain ⟨t, hexec, hwrites⟩ := addiWritesWrappedSum s 0 r2 0
    exact ⟨t, hexec, by rw [hwrites.value]; exact (add_sext16 _ 0).symm.trans (BitVec.add_zero _)⟩

/-- Settles O44: reset lists no byte, so the first word is zero, and opcode 0x00 has no funct 0x00. -/
theorem resetValues : Obligations.ResetValues :=
  ⟨State.reset_readReg, rfl, fun _ => rfl, step_illegalFunct_iff.mpr (by decide)⟩

/-- Settles O45: reset is a launch with no byte listed, and the launch's hypotheses are the invariant's three parts. -/
theorem invariantAtLaunch : Obligations.InvariantAtLaunch := ⟨reset_inv, fun x _ _ => launch_inv x⟩

/-- Settles O59: the codes of the five halts, read off. -/
theorem haltCodes : Obligations.HaltCodes :=
  ⟨rfl, rfl, rfl, rfl, rfl, Fault.code_inj, Fault.code_ne_zero⟩

end Sys2Proof.Machine
end
